-- ==== Sys2Proof/Word.lean ====
section
/-! DEFINITION. Word.lean: bytes, byte sequences and the one size function (00_scope.md section 5.1). -/

namespace Sys2Proof

/-- A byte, 8 bits (00_scope.md section 5.1). Numbers (widths, lengths, capacities) are plain `Nat`: rule R8. -/
abbrev Byte := BitVec 8

/-- A finite sequence of bytes, index 0 the first byte. -/
abbrev Bytes := List Byte

/-- One token of a command line: a run of 8-bit characters (30_encoding.md rule R87). -/
abbrev Token := Bytes

/-- One command packet as the host presents it (30_encoding.md rule R81). -/
abbrev Packet := Bytes

/-- `ceil8(n) = (n + 7) div 8`: the number of bytes that hold `n` bits. -/
def ceil8 (n : Nat) : Nat := (n + 7) / 8

end Sys2Proof
end

