-- ==== Sys2Proof/Config.lean ====
section
/-! DEFINITION. Config.lean: the parameters of rule R6. `MAXBYTES` and `NSCRATCH` are OPEN in the spec, so the machine carries them
in its state (`State.maxBytes`, the length of `State.scratch`) and every statement over all states holds for every value of
them; the two values here are only those that `State.reset` has (log entry 1, DESIGN CHOICE). -/

namespace Sys2Proof

/-- `MAXBYTES` at `State.reset`: the largest value rule R6 allows. DESIGN CHOICE, log entry 1, unsafe for a claim about a run
from `State.reset` alone. -/
def Config.maxBytesAtReset : Option Nat := some (2 ^ 29 - 1)

/-- `NSCRATCH` at `State.reset`: what the programs of 95_test_vectors.md need. DESIGN CHOICE, log entry 1, unsafe for a claim about
a run from `State.reset` alone. -/
def Config.nscratchAtReset : Nat := 4

/-- `WS`, the whitespace characters of the line tokenizer (rule R87, decision D9; log entry 7). -/
def Config.whitespace : List Byte := [0x09, 0x0A, 0x0B, 0x0C, 0x0D, 0x20]

/-- Is the character one of `WS`? -/
def isWs (c : Byte) : Bool := Config.whitespace.contains c

end Sys2Proof
end

