-- ==== Sys2Proof/Syntax.lean ====
section
/-! DEFINITION. Syntax.lean: the 17 commands of opcode_table.json (30_encoding.md rule R83), with their operands as the packet
carries them. -/

namespace Sys2Proof

/-- The six Bit-Stores, by the command token that selects each (10_state.md rule R23). -/
inductive Reg where
  | hir | hdr | sir | sdr | tir | tdr
  deriving DecidableEq, Repr

/-- The six, in the index order of rule R23. -/
def Reg.all : List Reg := [.hir, .hdr, .sir, .sdr, .tir, .tdr]

/-- The three buffers of a Bit-Store (10_state.md rule R21). -/
inductive Field where
  | tdi | tdo | mask
  deriving DecidableEq, Repr

/-- The three, in the order of rule R21. -/
def Field.all : List Field := [.tdi, .tdo, .mask]

/-- The shift register a `CHAIN` selects (30_encoding.md rule R81, `sel` bit 2). -/
inductive ShiftReg where
  | instruction | data
  deriving DecidableEq, Repr

/-- One constructor per row of opcode_table.json. A buffer operand is the raw `bid` byte (rule R30 resolves it when the command
runs), a number is a `Nat` (rule R8; its 32-bit field is a check of `wellFormed`), and a register command carries the tokens
that follow its register token (rules R87 and R88; log entry 20). -/
inductive Instr where
  /-- `BCREATE Bi, n` (R122). -/
  | bcreate (id : Byte) (n : Nat)
  /-- `BRESET Bi` (R123). -/
  | breset (id : Byte)
  /-- `BAPPEND Bi, V` (R124). -/
  | bappend (id : Byte) (bytes : Bytes)
  /-- `BRESIZEZ Bi, n` (R125). -/
  | bresizez (id : Byte) (n : Nat)
  /-- `BDESTROY Bi` (R126). -/
  | bdestroy (id : Byte)
  /-- `BREAD buf` (R127). -/
  | bread (id : Byte)
  /-- `HEXDEC Bi, text` (R141). -/
  | hexdec (id : Byte) (text : Bytes)
  /-- `HEXREN buf` (R142). -/
  | hexren (id : Byte)
  /-- `MERGE Bd, t/tw, l/lw, h/hw` (R161). -/
  | merge (dst t : Byte) (tw : Nat) (l : Byte) (lw : Nat) (h : Byte) (hw : Nat)
  /-- `CHAIN Bd, I|D, field` (R170). -/
  | chain (dst : Byte) (sr : ShiftReg) (f : Field)
  /-- The line `HDR ...` (R197). -/
  | hdr (args : List Token)
  /-- The line `HIR ...` (R198). -/
  | hir (args : List Token)
  /-- The line `SDR ...` (R199). -/
  | sdr (args : List Token)
  /-- The line `SIR ...` (R200). -/
  | sir (args : List Token)
  /-- The line `TDR ...` (R201). -/
  | tdr (args : List Token)
  /-- The line `TIR ...` (R202). -/
  | tir (args : List Token)
  /-- `QUERY reg` (R205). -/
  | query (r : Reg)
  deriving DecidableEq, Repr

/-- The register command of store `r` (rule R88). -/
def lineInstr : Reg → List Token → Instr
  | .hir, args => .hir args
  | .hdr, args => .hdr args
  | .sir, args => .sir args
  | .sdr, args => .sdr args
  | .tir, args => .tir args
  | .tdr, args => .tdr args

end Sys2Proof
end

