-- ==== Sys2Proof/WellFormed.lean ====
section
/-! DEFINITION. WellFormed.lean: which instructions a packet can carry. Every number and every blob length fits its `num32` field
(30_encoding.md rules R81, R82), and every token of a line is one the tokenizer can produce (rule R87). -/

namespace Sys2Proof

/-- A number that fits a `num32` field (rule R81). -/
def fitsNum32 (n : Nat) : Bool := decide (n < 2 ^ 32)

/-- A token the tokenizer can produce: not empty and with no whitespace character in it (rule R87). -/
def tokenOk (t : Token) : Bool := !t.isEmpty && t.all (fun c => !isWs c)

/-- The length in characters of the line that spells a register token of three characters and then `args`, with one space before
each (rule R98: the line is its own spelling). -/
def lineLength : List Token → Nat
  | [] => 3
  | t :: ts => 1 + t.length + lineLength ts

/-- The arguments of a register command that some line carries. -/
def lineOk (args : List Token) : Bool := args.all tokenOk && fitsNum32 (lineLength args)

/-- The instructions that some packet carries. -/
def wellFormed : Instr → Bool
  | .bcreate _ n => fitsNum32 n
  | .breset _ => true
  | .bappend _ bytes => fitsNum32 bytes.length
  | .bresizez _ n => fitsNum32 n
  | .bdestroy _ => true
  | .bread _ => true
  | .hexdec _ text => fitsNum32 text.length
  | .hexren _ => true
  | .merge _ _ tw _ lw _ hw => fitsNum32 tw && fitsNum32 lw && fitsNum32 hw
  | .chain _ _ _ => true
  | .hdr args => lineOk args
  | .hir args => lineOk args
  | .sdr args => lineOk args
  | .sir args => lineOk args
  | .tdr args => lineOk args
  | .tir args => lineOk args
  | .query _ => true

end Sys2Proof
end

