-- ==== Sys2Proof/Decode.lean ====
section
/-! DEFINITION. Decode.lean: command packets to instructions and back (30_encoding.md rules R80 to R95), the tokenizer of the line
port (R87), and the byte-order helpers both sides use. -/

namespace Sys2Proof

/-! ## Byte order (00_scope.md section 5.1, 20_memory.md rule R54) -/

/-- `val(X)`: the big-endian value of a byte sequence, the first byte most significant. -/
def val (X : Bytes) : Nat := X.foldl (fun acc b => acc * 256 + b.toNat) 0

/-- `be(v, n)`: the `n` bytes whose big-endian value is `v` (for `v < 256^n`; the low `n` bytes of `v` otherwise). -/
def be (v : Nat) : Nat → Bytes
  | 0 => []
  | n + 1 => be (v / 256) n ++ [BitVec.ofNat 8 v]

/-- `num32` assembly (rule R94). -/
def num32 (b0 b1 b2 b3 : Byte) : Nat :=
  b0.toNat * 2 ^ 24 + b1.toNat * 2 ^ 16 + b2.toNat * 2 ^ 8 + b3.toNat

/-- The four bytes of a `num32` field (rules R81, R94). -/
def encNum32 (n : Nat) : Bytes := be n 4

/-- A `blob`: a `num32` length and the payload (rule R81). -/
def encBlob (payload : Bytes) : Bytes := encNum32 payload.length ++ payload

/-! ## Indices (10_state.md rule R23, 92_eei_decisions.md D8) -/

/-- The index of a Bit-Store. -/
def Reg.index : Reg → Nat
  | .hir => 0
  | .hdr => 1
  | .sir => 2
  | .sdr => 3
  | .tir => 4
  | .tdr => 5

/-- The Bit-Store with an index; 6 to 255 are reserved (rule R81). -/
def Reg.ofIndex : Nat → Option Reg
  | 0 => some .hir
  | 1 => some .hdr
  | 2 => some .sir
  | 3 => some .sdr
  | 4 => some .tir
  | 5 => some .tdr
  | _ => none

/-- The index of a field. -/
def Field.index : Field → Nat
  | .tdi => 0
  | .tdo => 1
  | .mask => 2

/-- The field with an index; 3 is reserved (rule R81). -/
def Field.ofIndex : Nat → Option Field
  | 0 => some .tdi
  | 1 => some .tdo
  | 2 => some .mask
  | _ => none

/-! ## The `sel` field (rule R81) -/

/-- Bit 2 of `sel`. -/
def ShiftReg.bit : ShiftReg → Nat
  | .instruction => 0
  | .data => 1

/-- The `sel` byte: bits 7:3 zero, bit 2 the shift register, bits 1:0 the field. -/
def encSel (sr : ShiftReg) (f : Field) : Byte := BitVec.ofNat 8 (4 * sr.bit + f.index)

/-- `sel` read back; none where bits 7:3 are not zero or bits 1:0 are 3. -/
def decodeSel (sel : Byte) : Option (ShiftReg × Field) :=
  if sel.toNat / 8 = 0 then
    match Field.ofIndex (sel.toNat % 4) with
    | some f => some (if sel.toNat / 4 % 2 = 0 then .instruction else .data, f)
    | none => none
  else none

/-! ## Tokens of a line (rules R87, R88) -/

/-- Put a run of token characters before the tokens that follow it; an empty run is no token. -/
def pushToken (cur : Token) (rest : List Token) : List Token := if cur.isEmpty then rest else cur :: rest

/-- The run of token characters a text starts with, and the tokens after that run. -/
def splitToken : Bytes → Token × List Token
  | [] => ([], [])
  | c :: cs =>
    let r := splitToken cs
    if isWs c then ([], pushToken r.1 r.2) else (c :: r.1, r.2)

/-- The tokens of a line: its maximal runs of characters that are not whitespace, in order (rule R87). -/
def tokens (text : Bytes) : List Token := pushToken (splitToken text).1 (splitToken text).2

/-- The ASCII spelling of each register token (rule R88). -/
def Reg.token : Reg → Token
  | .hdr => [0x48, 0x44, 0x52]
  | .hir => [0x48, 0x49, 0x52]
  | .sdr => [0x53, 0x44, 0x52]
  | .sir => [0x53, 0x49, 0x52]
  | .tdr => [0x54, 0x44, 0x52]
  | .tir => [0x54, 0x49, 0x52]

/-- The register token, compared as a whole and case-sensitively (rules R88, R191). -/
def Reg.ofToken (t : Token) : Option Reg :=
  [Reg.hdr, .hir, .sdr, .sir, .tdr, .tir].find? (fun r => decide (r.token = t))

/-! ## Opcodes (rule R83) -/

/-- The twelve opcodes; the six register commands share `line`. -/
inductive Opcode where
  | bcreate | breset | bappend | bresizez | bdestroy | bread | hexdec | hexren | merge | chain | line | query
  deriving DecidableEq, Repr

/-- The opcode map of rule R83. -/
def opcodeTable : List (Byte × Opcode) :=
  [(0x01, .bcreate), (0x02, .breset), (0x03, .bappend), (0x04, .bresizez), (0x05, .bdestroy), (0x06, .bread),
   (0x10, .hexdec), (0x11, .hexren), (0x20, .merge), (0x21, .chain), (0x30, .line), (0x31, .query)]

/-- The opcode of byte 0; every byte the table does not list is reserved (rule R95). -/
def Opcode.ofByte (b : Byte) : Option Opcode :=
  (opcodeTable.find? (fun row => decide (row.1 = b))).map Prod.snd

/-- The byte of an opcode. -/
def Opcode.byte : Opcode → Byte
  | .bcreate => 0x01
  | .breset => 0x02
  | .bappend => 0x03
  | .bresizez => 0x04
  | .bdestroy => 0x05
  | .bread => 0x06
  | .hexdec => 0x10
  | .hexren => 0x11
  | .merge => 0x20
  | .chain => 0x21
  | .line => 0x30
  | .query => 0x31

/-! ## Decoding a packet (rules R82, R85, R95) -/

/-- Why a packet is not well formed (rule R95). All of them are the refusal `BadPacket`. -/
inductive PacketFlaw where
  | emptyPacket | reservedOpcode | wrongLength | reservedSel | reservedReg
  deriving DecidableEq, Repr

/-- What a packet is: one of the 17 commands, a line that names no register command (a legal command with an error status, rule R96;
log entry 11), or malformed. -/
inductive Decoded where
  | instr (i : Instr)
  | unknownLine
  | reject (why : PacketFlaw)
  deriving DecidableEq, Repr

/-- Format `B`: `op`, `bid`. -/
def decodeB (mk : Byte → Instr) : Bytes → Decoded
  | [id] => .instr (mk id)
  | _ => .reject .wrongLength

/-- Format `BN`: `op`, `bid`, `num32 n`. -/
def decodeBN (mk : Byte → Nat → Instr) : Bytes → Decoded
  | [id, n0, n1, n2, n3] => .instr (mk id (num32 n0 n1 n2 n3))
  | _ => .reject .wrongLength

/-- Format `BV`: `op`, `bid`, `num32 L`, `L` payload bytes. -/
def decodeBV (mk : Byte → Bytes → Instr) : Bytes → Decoded
  | id :: n0 :: n1 :: n2 :: n3 :: payload =>
    if payload.length = num32 n0 n1 n2 n3 then .instr (mk id payload) else .reject .wrongLength
  | _ => .reject .wrongLength

/-- Format `M`: `op`, `dst`, then three pairs of a `bid` and a `num32` width, tail, line, head. -/
def decodeM : Bytes → Decoded
  | [dst, t, t0, t1, t2, t3, l, l0, l1, l2, l3, h, h0, h1, h2, h3] =>
    .instr (.merge dst t (num32 t0 t1 t2 t3) l (num32 l0 l1 l2 l3) h (num32 h0 h1 h2 h3))
  | _ => .reject .wrongLength

/-- Format `C`: `op`, `dst`, `sel`. -/
def decodeC : Bytes → Decoded
  | [dst, sel] =>
    match decodeSel sel with
    | some (sr, f) => .instr (.chain dst sr f)
    | none => .reject .reservedSel
  | _ => .reject .wrongLength

/-- The command of a line: its first token selects it (rules R88, R191). -/
def decodeLine (text : Bytes) : Decoded :=
  match tokens text with
  | [] => .unknownLine
  | t :: args =>
    match Reg.ofToken t with
    | some r => .instr (lineInstr r args)
    | none => .unknownLine

/-- Format `L`: `op`, `num32 L`, `L` characters. -/
def decodeL : Bytes → Decoded
  | n0 :: n1 :: n2 :: n3 :: text =>
    if text.length = num32 n0 n1 n2 n3 then decodeLine text else .reject .wrongLength
  | _ => .reject .wrongLength

/-- Format `Q`: `op`, `reg`. -/
def decodeQ : Bytes → Decoded
  | [r] =>
    match Reg.ofIndex r.toNat with
    | some reg => .instr (.query reg)
    | none => .reject .reservedReg
  | _ => .reject .wrongLength

/-- The operand fields that follow each opcode (rules R82, R83). -/
def decodeFields : Opcode → Bytes → Decoded
  | .bcreate => decodeBN .bcreate
  | .breset => decodeB .breset
  | .bappend => decodeBV .bappend
  | .bresizez => decodeBN .bresizez
  | .bdestroy => decodeB .bdestroy
  | .bread => decodeB .bread
  | .hexdec => decodeBV .hexdec
  | .hexren => decodeB .hexren
  | .merge => decodeM
  | .chain => decodeC
  | .line => decodeL
  | .query => decodeQ

/-- The command a packet carries. Total: every byte string is a command, a line without a command, or malformed. -/
def decodePacket : Packet → Decoded
  | [] => .reject .emptyPacket
  | op :: rest =>
    match Opcode.ofByte op with
    | some o => decodeFields o rest
    | none => .reject .reservedOpcode

/-! ## Encoding (rules R82, R83, R98) -/

/-- The text of a register command: the register token, then each argument after one space. -/
def encodeArgs : List Token → Bytes
  | [] => []
  | t :: ts => 0x20#8 :: (t ++ encodeArgs ts)

/-- Format `L` for store `r`. -/
def encodeLine (r : Reg) (args : List Token) : Packet := Opcode.line.byte :: encBlob (r.token ++ encodeArgs args)

/-- The packet of an instruction (meant for a `wellFormed` one: a number that does not fit its field is cut to 32 bits). -/
def encode : Instr → Packet
  | .bcreate id n => Opcode.bcreate.byte :: id :: encNum32 n
  | .breset id => [Opcode.breset.byte, id]
  | .bappend id bytes => Opcode.bappend.byte :: id :: encBlob bytes
  | .bresizez id n => Opcode.bresizez.byte :: id :: encNum32 n
  | .bdestroy id => [Opcode.bdestroy.byte, id]
  | .bread id => [Opcode.bread.byte, id]
  | .hexdec id text => Opcode.hexdec.byte :: id :: encBlob text
  | .hexren id => [Opcode.hexren.byte, id]
  | .merge dst t tw l lw h hw =>
    Opcode.merge.byte :: dst :: t :: (encNum32 tw ++ l :: (encNum32 lw ++ h :: encNum32 hw))
  | .chain dst sr f => [Opcode.chain.byte, dst, encSel sr f]
  | .hdr args => encodeLine .hdr args
  | .hir args => encodeLine .hir args
  | .sdr args => encodeLine .sdr args
  | .sir args => encodeLine .sir args
  | .tdr args => encodeLine .tdr args
  | .tir args => encodeLine .tir args
  | .query r => [Opcode.query.byte, BitVec.ofNat 8 r.index]

/-! ## The opcode table's words (log entry 16) -/

/-- The first `n` bytes of a number whose byte 0 is its least significant byte. -/
def wordBytes (w : Nat) : Nat → Bytes
  | 0 => []
  | n + 1 => BitVec.ofNat 8 w :: wordBytes (w / 256) n

/-- The length in bytes that a packet's opcode and length field give it (rule R85), from its first six bytes; 0 for a reserved
opcode. -/
def packetLength : Bytes → Nat
  | op :: b1 :: b2 :: b3 :: b4 :: b5 :: _ =>
    match Opcode.ofByte op with
    | some .bcreate => 6
    | some .breset => 2
    | some .bappend => 6 + num32 b2 b3 b4 b5
    | some .bresizez => 6
    | some .bdestroy => 2
    | some .bread => 2
    | some .hexdec => 6 + num32 b2 b3 b4 b5
    | some .hexren => 2
    | some .merge => 17
    | some .chain => 3
    | some .line => 5 + num32 b1 b2 b3 b4
    | some .query => 2
    | none => 0
  | _ => 0

/-- The packet of a table word: its `nbits` bits as whole bytes, then zero bytes up to the length the packet's own header gives. -/
def tablePacket (nbits w : Nat) : Packet :=
  let k := ceil8 nbits
  let v := w % 2 ^ (8 * k)
  wordBytes v (max k (packetLength (wordBytes v 6)))

/-- The instruction the decoder reads from a table word; none where it is malformed or names no register command. -/
def decodeTableWord (nbits w : Nat) : Option Instr :=
  match decodePacket (tablePacket nbits w) with
  | .instr i => some i
  | .unknownLine => none
  | .reject _ => none

end Sys2Proof
end

