-- ==== Sys2Proof/Machine/State.lean ====
section
/-! DEFINITION. State.lean: the whole state of one instance of the block (10_state.md rule R20), the response it gives (30_encoding.md
rule R84), the outcomes of a step, and the state after reset (rule R35). Plain data throughout. -/

namespace Sys2Proof.Machine

/-- A live Byte Buffer (10_state.md rule R24): its capacity in bytes and its contents. `len` is the number of bytes of `data`, which
rule R24 requires (`|b.data| = b.len`), so it is computed (`Buf.len`) and not stored a second time. Storage above `len` is not
state (rule R25). -/
structure Buf where
  cap : Nat
  data : Bytes
  deriving DecidableEq, Repr

/-- `b.len` (rule R24). -/
def Buf.len (b : Buf) : Nat := b.data.length

/-- A Bit-Store (rule R21): the nominal width and the three buffers that share it. Store buffers are always live (rule R24). -/
structure BitStore where
  numBits : Nat
  tdi : Buf
  tdo : Buf
  mask : Buf
  deriving DecidableEq, Repr

/-- The six Bit-Stores `S[0..5]` (rule R23). -/
structure Stores where
  hir : BitStore
  hdr : BitStore
  sir : BitStore
  sdr : BitStore
  tir : BitStore
  tdr : BitStore
  deriving DecidableEq, Repr

/-- The error kinds, in the order of their status codes (60_exceptions.md rule R230). -/
inductive ErrorKind where
  | allocationError
  | malformedHexError
  | malformedValueError
  | unknownCommandError
  | unknownFieldError
  | malformedLineError
  deriving DecidableEq, Repr

/-- What a successful command returns (30_encoding.md rule R84). -/
inductive Result where
  /-- Nothing follows the status. -/
  | empty
  /-- `BREAD`: the buffer's length and its bytes in buffer order. -/
  | bytes (len : Nat) (data : Bytes)
  /-- `HEXREN`: the hex text. -/
  | text (chars : Bytes)
  /-- `MERGE` and `CHAIN`: `totalBits`. -/
  | totalBits (n : Nat)
  /-- `QUERY`: the four parts of a Bit-Store. -/
  | store (numBits : Nat) (tdi tdo mask : Bytes)
  deriving DecidableEq, Repr

/-- The response of a command that is not refused (00_scope.md rule R7): `ok(result)` or `error(kind)`. -/
inductive Response where
  | ok (r : Result)
  | error (k : ErrorKind)
  deriving DecidableEq, Repr

/-- What the host does to the block between two steps: it presents a command packet, or it asserts the reset input
(70_reset_and_hazards.md rule R260). -/
inductive HostEvent where
  | command (p : Packet)
  | reset
  deriving DecidableEq, Repr

/-- The state. `stores` and `scratch` are the whole state the spec gives the block (rule R20). `maxBytes` is the parameter `MAXBYTES`
of rule R6 (`none`: no bound), and the length of `scratch` is the parameter `NSCRATCH`: no step changes either (log entry 1).
`response` and `script` are the port's two sides (rule R36), which the model holds here because a step has no other argument or
result: the response the block gave last (log entry 3), and what the host does next, oldest first (log entry 2). -/
structure State where
  stores : Stores
  scratch : List (Option Buf)
  maxBytes : Option Nat
  response : Option Response
  script : List HostEvent
  deriving DecidableEq, Repr

/-- No command stops the machine with a fault: the spec's errors are statuses in a response, after which the block is ready for the
next command (60_exceptions.md rules R237, R242). So there is no fault to name (log entry 23). -/
inductive Fault where
  deriving DecidableEq, Repr

/-- The refusals: commands to which the spec gives no meaning (00_scope.md rule R7, 60_exceptions.md rule R240). Each is safe: the
model stops where a real block would do something the spec does not say. -/
inductive Refusal where
  /-- Raised by an arm of `exec` that has no meaning yet. Safe. -/
  | notModelled (mnemonic : String)
  /-- Raised by the port for a packet that is not well formed (rule R95). Safe. -/
  | badPacket
  /-- Raised by operand resolution for a `bid` that names no buffer (rules R30, R120). Safe. -/
  | badBufferId
  /-- Raised by operand resolution where a command other than a command line would write a store buffer (rules R28, R120). Safe. -/
  | storeBufferWrite
  /-- Raised by operand resolution for a scratch buffer that is not live (rule R120). Safe. -/
  | notLive
  /-- Raised by `BCREATE` on a live scratch buffer (rule R122). Safe. -/
  | alreadyLive
  /-- Raised by `MERGE` whose destination is one of its operands (rule R161). Safe. -/
  | destinationIsOperand
  /-- Raised by `MERGE` for a width above `8 * len` of its buffer (rules R53, R161). Safe. -/
  | widthExceedsBuffer
  deriving DecidableEq, Repr

/-- A store buffer after reset (rule R35): live, empty, capacity 0. -/
def Buf.atReset : Buf := { cap := 0, data := [] }

/-- A Bit-Store after reset (rule R35). -/
def BitStore.atReset : BitStore := { numBits := 0, tdi := Buf.atReset, tdo := Buf.atReset, mask := Buf.atReset }

/-- The six Bit-Stores after reset: "all six zeroed" (rule R35). -/
def Stores.atReset : Stores :=
  { hir := BitStore.atReset, hdr := BitStore.atReset, sir := BitStore.atReset,
    sdr := BitStore.atReset, tir := BitStore.atReset, tdr := BitStore.atReset }

/-- The machine right after reset (rule R35): all stores zeroed, no scratch buffer live; the parameters at the values log entry 1
names, nothing presented yet and no response yet (log entries 2 and 3). -/
def State.reset : State :=
  { stores := Stores.atReset
    scratch := List.replicate Config.nscratchAtReset none
    maxBytes := Config.maxBytesAtReset
    response := none
    script := [] }

end Sys2Proof.Machine
end

