-- ==== Sys2Proof/Machine/Ops.lean ====
section
/-! DEFINITION. Ops.lean: the named operations every command is made of: store and slot access, the growth primitive (R121), the memory
primitives (R52), ending a command with a response, raising an error (R239, R242), and the reset input (R260). -/

namespace Sys2Proof.Machine

/-- The outcome of a command. -/
abbrev Out := Host.Outcome State Fault Refusal

/-! ## Bit-Stores -/

/-- `S[r]`. -/
def Stores.get (x : Stores) : Reg → BitStore
  | .hir => x.hir
  | .hdr => x.hdr
  | .sir => x.sir
  | .sdr => x.sdr
  | .tir => x.tir
  | .tdr => x.tdr

/-- `S[r] <- v`: the whole Bit-Store is replaced in one step. -/
def Stores.set (x : Stores) (r : Reg) (v : BitStore) : Stores :=
  match r with
  | .hir => { x with hir := v }
  | .hdr => { x with hdr := v }
  | .sir => { x with sir := v }
  | .sdr => { x with sdr := v }
  | .tir => { x with tir := v }
  | .tdr => { x with tdr := v }

/-- `S[r].f`. -/
def BitStore.field (x : BitStore) : Field → Buf
  | .tdi => x.tdi
  | .tdo => x.tdo
  | .mask => x.mask

/-- `S[r].f` replaced. -/
def BitStore.setField (x : BitStore) (f : Field) (b : Buf) : BitStore :=
  match f with
  | .tdi => { x with tdi := b }
  | .tdo => { x with tdo := b }
  | .mask => { x with mask := b }

/-- `S[r]` of a state. -/
def State.store (s : State) (r : Reg) : BitStore := s.stores.get r

/-- The state with `S[r] <- v`. -/
def State.setStore (s : State) (r : Reg) (v : BitStore) : State := { s with stores := s.stores.set r v }

/-! ## Scratch slots -/

/-- `NSCRATCH` of this block (rule R6). -/
def State.nscratch (s : State) : Nat := s.scratch.length

/-- `B[i]`: its buffer where the slot exists and is live. -/
def State.slot (s : State) (i : Nat) : Option Buf := s.scratch[i]?.join

/-- The state with slot `B[i]` replaced: `none` makes it not live. -/
def State.setSlot (s : State) (i : Nat) (v : Option Buf) : State := { s with scratch := s.scratch.set i v }

/-! ## Capacity -/

/-- Can one buffer be given `n` bytes? False only where `MAXBYTES` is finite and `n` is above it (rule R121). -/
def fits (maxBytes : Option Nat) (n : Nat) : Bool :=
  match maxBytes with
  | none => true
  | some m => decide (n ≤ m)

/-- `b.cap` raised to `need` where it is lower: growth to exact need, never a shrink (rules R25, R121). -/
def Buf.grow (b : Buf) (need : Nat) : Buf := { b with cap := max b.cap need }

/-- `Ensure(b, need)` (rule R121): none is `AllocationError`. -/
def ensure (maxBytes : Option Nat) (b : Buf) (need : Nat) : Option Buf :=
  if fits maxBytes need then some (b.grow need) else none

/-- The buffer with other contents, capacity unchanged. -/
def Buf.withData (b : Buf) (Y : Bytes) : Buf := { b with data := Y }

/-- `zeros(n)`. -/
def zeros (n : Nat) : Bytes := List.replicate n 0

/-! ## Memory primitives (20_memory.md rule R52) -/

/-- `MemRead`: the `n` bytes at `off`; defined only below the length. -/
def Buf.memRead (b : Buf) (off n : Nat) : Option Bytes :=
  if off + n ≤ b.len then some ((b.data.drop off).take n) else none

/-- `MemWrite`: those bytes replaced by `v`, nothing else changed; defined only below the length. -/
def Buf.memWrite (b : Buf) (off : Nat) (v : Bytes) : Option Buf :=
  if off + v.length ≤ b.len then some (b.withData (b.data.take off ++ v ++ b.data.drop (off + v.length))) else none

/-! ## Ending a command (00_scope.md rule R7, 30_encoding.md rule R84) -/

/-- The state with the response put on the port. -/
def State.respond (s : State) (r : Response) : State := { s with response := some r }

/-- `return v`: the command ends with `ok(v)`. -/
def finish (s : State) (r : Result) : Out := .next (s.respond (.ok r))

/-- `raise kind`: the one shared operation by which every error is taken (60_exceptions.md rule R239). The status is in the response and
nowhere else: nothing is saved, no mode changes, control goes nowhere, and the block is ready for the next command (rule R242), so
there is no return operation beside it. What state the command leaves is the `s` it is given. -/
def raise (s : State) (k : ErrorKind) : Out := .next (s.respond (.error k))

/-! ## The host's side of the port -/

/-- The reset input (70_reset_and_hazards.md rule R260): every piece of state at the value of rule R35, whatever it was; the
parameters stay (rule R33), no response is given, and what the host does next is the host's (log entry 13). -/
def State.resetBlock (s : State) : State :=
  { stores := Stores.atReset
    scratch := List.replicate s.nscratch none
    maxBytes := s.maxBytes
    response := none
    script := s.script }

/-- The state with what the host does next replaced. -/
def State.withScript (s : State) (evs : List HostEvent) : State := { s with script := evs }

end Sys2Proof.Machine
end

