-- ==== Sys2Proof/Machine/Operands.lean ====
section
/-! DEFINITION. Operands.lean: buffer ids (10_state.md rule R30) and operand resolution, common to every command that carries a buffer id
(40_byte_buffer.md rule R120). -/

namespace Sys2Proof.Machine

/-- What a buffer id names. -/
inductive BufRef where
  | store (r : Reg) (f : Field)
  | scratch (i : Nat)
  deriving DecidableEq, Repr

/-- The id of store buffer `S[r].f`: `3*r + f` (rule R30). -/
def storeId (r : Reg) (f : Field) : Byte := BitVec.ofNat 8 (3 * r.index + f.index)

/-- The id of scratch buffer `B[i]`: `0x80 + i` (rule R30). -/
def scratchId (i : Nat) : Byte := BitVec.ofNat 8 (0x80 + i)

/-- The buffer an id names in a block of `nscratch` scratch buffers; none for every other value (rule R30). -/
def bufRef (nscratch : Nat) (id : Byte) : Option BufRef :=
  if id.toNat < 0x12 then
    match Reg.ofIndex (id.toNat / 3), Field.ofIndex (id.toNat % 3) with
    | some r, some f => some (.store r f)
    | _, _ => none
  else if 0x80 ≤ id.toNat ∧ id.toNat < 0x80 + nscratch then some (.scratch (id.toNat - 0x80))
  else none

/-- What a resolution gives: the operand, or the refusal. -/
inductive Resolved (α : Type) where
  | ok (a : α)
  | refuse (r : Refusal)
  deriving DecidableEq, Repr

/-- The scratch slot an id names, live or not: the part of `resolve(id, WRITE)` that `BCREATE` shares (rules R120, R122). -/
def resolveSlot (s : State) (id : Byte) : Resolved Nat :=
  match bufRef s.nscratch id with
  | none => .refuse .badBufferId
  | some (.store _ _) => .refuse .storeBufferWrite
  | some (.scratch i) => .ok i

/-- `resolve(id, WRITE)` (rule R120): the slot and the live buffer in it. -/
def resolveWrite (s : State) (id : Byte) : Resolved (Nat × Buf) :=
  match resolveSlot s id with
  | .refuse r => .refuse r
  | .ok i =>
    match s.slot i with
    | none => .refuse .notLive
    | some b => .ok (i, b)

/-- `resolve(id, READ)` (rule R120): a store buffer, or a live scratch buffer. -/
def resolveRead (s : State) (id : Byte) : Resolved Buf :=
  match bufRef s.nscratch id with
  | none => .refuse .badBufferId
  | some (.store r f) => .ok ((s.store r).field f)
  | some (.scratch i) =>
    match s.slot i with
    | none => .refuse .notLive
    | some b => .ok b

/-- Go on with the buffer read, or refuse. -/
def withRead (s : State) (id : Byte) (k : Buf → Out) : Out :=
  match resolveRead s id with
  | .refuse r => .refused r
  | .ok b => k b

/-- Go on with the slot and the buffer to be written, or refuse. -/
def withWrite (s : State) (id : Byte) (k : Nat → Buf → Out) : Out :=
  match resolveWrite s id with
  | .refuse r => .refused r
  | .ok ib => k ib.1 ib.2

/-- Give buffer `b` of slot `i` the contents `Y`, growing it (rule R121), and end with `result`; `AllocationError` leaves the state `s`
as it is (60_exceptions.md rule R237). -/
def storeBytes (s : State) (i : Nat) (b : Buf) (Y : Bytes) (result : Result) : Out :=
  match ensure s.maxBytes b Y.length with
  | none => raise s .allocationError
  | some b' => finish (s.setSlot i (some (b'.withData Y))) result

end Sys2Proof.Machine
end

