-- ==== Sys2Proof/Machine/BitMerge.lean ====
section
/-! DEFINITION. BitMerge.lean: the Bit Merge Engine (42_bit_merge.md): Bit Values (20_memory.md rule R53), the packing function in its
defining form (R160) and in the two forms an implementation can take (R165, R166), `MERGE` and `CHAIN`. -/

namespace Sys2Proof.Machine

/-- A Bit Value: a buffer's bytes and a width in bits (20_memory.md rule R53). -/
structure BitValue where
  bytes : Bytes
  width : Nat
  deriving DecidableEq, Repr

/-- `low(X, w)`: the number a Bit Value means (rule R53). -/
def BitValue.low (v : BitValue) : Nat := val v.bytes % 2 ^ v.width

/-- A Bit Value the spec gives a meaning: its width does not exceed its buffer (rules R53, R161). -/
def BitValue.inRange (v : BitValue) : Bool := decide (v.width ≤ 8 * v.bytes.length)

/-- `bitof(X, k)`: bit `k` of `val(X)`, bit 0 the least significant bit of the last byte (00_scope.md section 5.1). -/
def bitof (X : Bytes) (k : Nat) : Nat := (X.getD (X.length - 1 - k / 8) 0).toNat / 2 ^ (k % 8) % 2

/-- The total width. -/
def packTotal (t l h : BitValue) : Nat := t.width + l.width + h.width

/-- The output bytes of `pack` (rule R160): tail, line, head, most significant first. -/
def packBytes (t l h : BitValue) : Bytes :=
  be (t.low * 2 ^ (l.width + h.width) + l.low * 2 ^ h.width + h.low) (ceil8 (packTotal t l h))

/-! ## The bit-serial form (rule R165) -/

/-- Set output bit `p`, counted from 0 at the most significant bit of byte 0. -/
def setOutBit (out : Bytes) (p : Nat) : Bytes := out.modify (p / 8) (fun b => b ||| BitVec.ofNat 8 (2 ^ (7 - p % 8)))

/-- The inner loop of rule R165: bits `k-1` down to 0 of `X`, each at the running position. -/
def serialBits (X : Bytes) : Nat → Bytes × Nat → Bytes × Nat
  | 0, op => op
  | k + 1, op => serialBits X k (if bitof X k = 1 then setOutBit op.1 op.2 else op.1, op.2 + 1)

/-- The output of rule R165. -/
def packSerial (t l h : BitValue) : Bytes :=
  let n := ceil8 (packTotal t l h)
  let start := (zeros n, 8 * n - packTotal t l h)
  (serialBits h.bytes h.width (serialBits l.bytes l.width (serialBits t.bytes t.width start))).1

/-! ## The byte-wise streaming form (rule R166) -/

/-- The state of rule R166's loop: the bytes out, the accumulator and the count of bits in it. -/
structure Stream where
  out : Bytes
  acc : Nat
  nacc : Nat
  deriving DecidableEq, Repr

/-- Take a chunk of `k` bits into the accumulator, and put a byte out where eight bits are there. -/
def streamChunk (k : Nat) (st : Stream) (chunk : Nat) : Stream :=
  let acc := st.acc * 2 ^ k + chunk
  let nacc := st.nacc + k
  if 8 ≤ nacc then
    { out := st.out ++ [BitVec.ofNat 8 (acc / 2 ^ (nacc - 8))], acc := acc % 2 ^ (nacc - 8), nacc := nacc - 8 }
  else { out := st.out, acc := acc, nacc := nacc }

/-- One operand: the last `ceil8(w)` bytes, the first of them cut to its low `w - 8*(ceil8(w)-1)` bits. -/
def streamValue (st : Stream) (v : BitValue) : Stream :=
  if v.width = 0 then st
  else
    let nb := ceil8 v.width
    let r := v.width - 8 * (nb - 1)
    match v.bytes.drop (v.bytes.length - nb) with
    | [] => st
    | x :: xs => xs.foldl (fun st b => streamChunk 8 st b.toNat) (streamChunk r st (x.toNat % 2 ^ r))

/-- The output of rule R166. -/
def packStream (t l h : BitValue) : Bytes :=
  let total := packTotal t l h
  (streamValue (streamValue (streamValue { out := [], acc := 0, nacc := 8 * ceil8 total - total } t) l) h).out

/-! ## The commands -/

/-- `MERGE dst, t/tw, l/lw, h/hw` as rule R161 gives it, the one operation behind `MERGE` and `CHAIN`. -/
def mergeInto (dst t : Byte) (tw : Nat) (l : Byte) (lw : Nat) (h : Byte) (hw : Nat) (s : State) : Out :=
  withWrite s dst fun i d =>
  withRead s t fun bt =>
  withRead s l fun bl =>
  withRead s h fun bh =>
    if dst = t ∨ dst = l ∨ dst = h then .refused .destinationIsOperand
    else
      let vt : BitValue := { bytes := bt.data, width := tw }
      let vl : BitValue := { bytes := bl.data, width := lw }
      let vh : BitValue := { bytes := bh.data, width := hw }
      if vt.inRange && vl.inRange && vh.inRange then
        storeBytes s i d (packBytes vt vl vh) (.totalBits (packTotal vt vl vh))
      else .refused .widthExceedsBuffer

/-- `MERGE` (rule R161). -/
def execMerge (dst t : Byte) (tw : Nat) (l : Byte) (lw : Nat) (h : Byte) (hw : Nat) (s : State) : Out :=
  mergeInto dst t tw l lw h hw s

/-- The trailer store of a shift register (rules R23, R170). -/
def trailerStore : ShiftReg → Reg
  | .instruction => .tir
  | .data => .tdr

/-- The body store of a shift register (rules R23, R170). -/
def bodyStore : ShiftReg → Reg
  | .instruction => .sir
  | .data => .sdr

/-- The header store of a shift register (rules R23, R170). -/
def headerStore : ShiftReg → Reg
  | .instruction => .hir
  | .data => .hdr

/-- `CHAIN` (rule R170): exactly the `MERGE` of the trailer store's field as tail, the body store's as line and the header store's as
head, each at its store's `numBits`. -/
def execChain (dst : Byte) (sr : ShiftReg) (f : Field) (s : State) : Out :=
  mergeInto dst
    (storeId (trailerStore sr) f) (s.store (trailerStore sr)).numBits
    (storeId (bodyStore sr) f) (s.store (bodyStore sr)).numBits
    (storeId (headerStore sr) f) (s.store (headerStore sr)).numBits s

end Sys2Proof.Machine
end

