-- ==== Sys2Proof/Machine/ByteBuffer.lean ====
section
/-! DEFINITION. ByteBuffer.lean: the Byte Buffer commands (40_byte_buffer.md). -/

namespace Sys2Proof.Machine

/-- `BCREATE Bi, n` (rule R122). -/
def execBcreate (id : Byte) (n : Nat) (s : State) : Out :=
  match resolveSlot s id with
  | .refuse r => .refused r
  | .ok i =>
    match s.slot i with
    | some _ => .refused .alreadyLive
    | none =>
      if fits s.maxBytes n then finish (s.setSlot i (some { cap := n, data := [] })) .empty
      else raise s .allocationError

/-- `BRESET Bi` (rule R123). -/
def execBreset (id : Byte) (s : State) : Out :=
  withWrite s id fun i b => finish (s.setSlot i (some (b.withData []))) .empty

/-- `BAPPEND Bi, V` (rule R124). -/
def execBappend (id : Byte) (bytes : Bytes) (s : State) : Out :=
  withWrite s id fun i b => storeBytes s i b (b.data ++ bytes) .empty

/-- `BRESIZEZ Bi, n` (rule R125). The size is checked before any byte is made, as `Ensure` comes first. -/
def execBresizez (id : Byte) (n : Nat) (s : State) : Out :=
  withWrite s id fun i b =>
    match ensure s.maxBytes b n with
    | none => raise s .allocationError
    | some b' => finish (s.setSlot i (some (b'.withData (zeros n)))) .empty

/-- `BDESTROY Bi` (rule R126). -/
def execBdestroy (id : Byte) (s : State) : Out :=
  withWrite s id fun i _ => finish (s.setSlot i none) .empty

/-- `BREAD buf` (rule R127): the length and `MemRead(id, 0, len)`, which is always defined. -/
def execBread (id : Byte) (s : State) : Out :=
  withRead s id fun b => finish s (.bytes b.len ((b.memRead 0 b.len).getD []))

end Sys2Proof.Machine
end

