-- ==== Sys2Proof/Machine/HexCodec.lean ====
section
/-! DEFINITION. HexCodec.lean: the Hex Codec (41_hex_codec.md): digit values, the pure decoder and renderer, `HEXDEC` and `HEXREN`. -/

namespace Sys2Proof.Machine

/-- `hv(c)`, none where `ishex(c)` is false (rule R140). -/
def hexVal (c : Byte) : Option Nat :=
  if 0x30 ≤ c.toNat ∧ c.toNat ≤ 0x39 then some (c.toNat - 0x30)
  else if 0x41 ≤ c.toNat ∧ c.toNat ≤ 0x46 then some (c.toNat - 0x41 + 10)
  else if 0x61 ≤ c.toNat ∧ c.toNat ≤ 0x66 then some (c.toNat - 0x61 + 10)
  else none

/-- `hd(v)` for `v` in 0..15, always upper case (rule R140). -/
def hexDigit (v : Nat) : Byte := if v ≤ 9 then BitVec.ofNat 8 (0x30 + v) else BitVec.ofNat 8 (0x41 + (v - 10))

/-- `decode(text)` (rule R141); none is `MalformedHexError`: an odd length or a character that is no hex digit. -/
def decodeHex : Bytes → Option Bytes
  | [] => some []
  | [_] => none
  | a :: b :: rest =>
    match hexVal a, hexVal b, decodeHex rest with
    | some x, some y, some Y => some (BitVec.ofNat 8 (16 * x + y) :: Y)
    | _, _, _ => none

/-- `render` (rule R142): two upper-case digits a byte, in buffer order. -/
def renderHex (X : Bytes) : Bytes := X.flatMap fun b => [hexDigit (b.toNat / 16), hexDigit (b.toNat % 16)]

/-- `HEXDEC Bi, text` (rule R141): the target is emptied first, and stays empty where the text or the growth fails. -/
def execHexdec (id : Byte) (text : Bytes) (s : State) : Out :=
  withWrite s id fun i b =>
    let emptied := b.withData []
    let s1 := s.setSlot i (some emptied)
    match decodeHex text with
    | none => raise s1 .malformedHexError
    | some Y => storeBytes s1 i emptied Y .empty

/-- `HEXREN buf` (rule R142). -/
def execHexren (id : Byte) (s : State) : Out :=
  withRead s id fun b => finish s (.text (renderHex b.data))

end Sys2Proof.Machine
end

