-- ==== Sys2Proof/Machine/RegisterParse.lean ====
section
/-! DEFINITION. RegisterParse.lean: the Register Parse Engine (43_register_parse.md): the algorithm of a command line (R196) from its
second token on, the six register commands, the line that names none of them, and `QUERY`. -/

namespace Sys2Proof.Machine

/-! ## Operand forms of a line (30_encoding.md rules R89 to R92) -/

/-- The value of a decimal digit character (rule R89). -/
def digitVal (c : Byte) : Option Nat :=
  if 0x30 ≤ c.toNat ∧ c.toNat ≤ 0x39 then some (c.toNat - 0x30) else none

/-- Read decimal digits after a value already read; none at the first character that is no digit. -/
def decimalFrom (acc : Nat) : Token → Option Nat
  | [] => some acc
  | c :: cs =>
    match digitVal c with
    | some d => decimalFrom (acc * 10 + d) cs
    | none => none

/-- `NUMBITS` (rule R89): one or more decimal digits, with no upper bound. -/
def decimal : Token → Option Nat
  | [] => none
  | c :: cs => decimalFrom 0 (c :: cs)

/-- The ASCII spelling of each field keyword (rule R90). -/
def keyword : Field → Token
  | .tdi => [0x54, 0x44, 0x49]
  | .tdo => [0x54, 0x44, 0x4F]
  | .mask => [0x4D, 0x41, 0x53, 0x4B]

/-- The field a keyword names: the whole token, upper case only (rule R90). -/
def ofKeyword (t : Token) : Option Field := Field.all.find? (fun f => decide (keyword f = t))

/-- The hex text of a value token: the outermost parentheses stripped (rule R91). -/
def stripParens : Token → Option Bytes
  | [] => none
  | c :: cs =>
    if c = 0x28#8 ∧ cs.getLast? = some 0x29#8 then some cs.dropLast else none

/-! ## Steps 2 and 3 of a line (rules R192 to R196) -/

/-- The outcome of a part of a line: a value, or the error kind. -/
inductive LineResult (α : Type) where
  | ok (a : α)
  | error (k : ErrorKind)
  deriving DecidableEq, Repr

/-- The three buffers zero-filled at the new width (rule R192); each is still the same buffer, so its capacity is kept. -/
def BitStore.zeroed (old : BitStore) (n : Nat) : BitStore :=
  { numBits := n
    tdi := old.tdi.withData (zeros (ceil8 n))
    tdo := old.tdo.withData (zeros (ceil8 n))
    mask := old.mask.withData (zeros (ceil8 n)) }

/-- Step 2 (rules R192, R196): the working copy of the store at the line's width; none is `AllocationError`. -/
def widthStep (maxBytes : Option Nat) (old : BitStore) (n : Nat) : Option BitStore :=
  if n = old.numBits then some old
  else if fits maxBytes (ceil8 n) then some (old.zeroed n)
  else none

/-- The value of a pair (rules R91, R92, R195): parentheses, then hex text, then the byte length `ceil8 n`. -/
def pairValue (n : Nat) (v : Token) : LineResult Bytes :=
  match stripParens v with
  | none => .error .malformedLineError
  | some h =>
    match decodeHex h with
    | none => .error .malformedHexError
    | some Y => if Y.length = ceil8 n then .ok Y else .error .malformedValueError

/-- Step 3 (rules R193 to R196): the pairs, in token order, into the working copy `new`; `seen` are the keywords of earlier pairs. -/
def pairsStep (n : Nat) : List Token → List Field → BitStore → LineResult BitStore
  | [], _, new => .ok new
  | k :: rest, seen, new =>
    match ofKeyword k with
    | none => .error .unknownFieldError
    | some f =>
      if f ∈ seen then .error .malformedLineError
      else
        match rest with
        | [] => .error .malformedLineError
        | v :: rest' =>
          match pairValue n v with
          | .error e => .error e
          | .ok Y => pairsStep n rest' (f :: seen) (new.setField f ((new.field f).withData Y))

/-- The commit (rule R196): each store buffer has its capacity raised to `ceil8 n` if it was lower. -/
def BitStore.commit (new : BitStore) (n : Nat) : BitStore :=
  { new with tdi := new.tdi.grow (ceil8 n), tdo := new.tdo.grow (ceil8 n), mask := new.mask.grow (ceil8 n) }

/-- A command line from its second token on: a pure function from the previous Bit-Store and the tokens to the new Bit-Store or an
error (rules R196, R207). -/
def parseStore (maxBytes : Option Nat) (old : BitStore) : List Token → LineResult BitStore
  | [] => .error .malformedLineError
  | w :: pairs =>
    match decimal w with
    | none => .error .malformedLineError
    | some n =>
      match widthStep maxBytes old n with
      | none => .error .allocationError
      | some new =>
        match pairsStep n pairs [] new with
        | .error e => .error e
        | .ok new' => .ok (new'.commit n)

/-- The register command of store `r`: all or nothing (rules R196, R204). -/
def execLine (r : Reg) (args : List Token) (s : State) : Out :=
  match parseStore s.maxBytes (s.store r) args with
  | .error k => raise s k
  | .ok new => finish (s.setStore r new) .empty

/-! ## The commands -/

/-- `HDR` (rule R197). -/
def execHdr (args : List Token) (s : State) : Out := execLine .hdr args s

/-- `HIR` (rule R198). -/
def execHir (args : List Token) (s : State) : Out := execLine .hir args s

/-- `SDR` (rule R199). -/
def execSdr (args : List Token) (s : State) : Out := execLine .sdr args s

/-- `SIR` (rule R200). -/
def execSir (args : List Token) (s : State) : Out := execLine .sir args s

/-- `TDR` (rule R201). -/
def execTdr (args : List Token) (s : State) : Out := execLine .tdr args s

/-- `TIR` (rule R202). -/
def execTir (args : List Token) (s : State) : Out := execLine .tir args s

/-- A line with no token, or whose first token is no register token (rules R96, R191, R234): an error status, no state changed. -/
def execUnknownLine (s : State) : Out := raise s .unknownCommandError

/-- `QUERY reg` (rule R205). -/
def execQuery (r : Reg) (s : State) : Out :=
  finish s (.store (s.store r).numBits (s.store r).tdi.data (s.store r).tdo.data (s.store r).mask.data)

end Sys2Proof.Machine
end

