-- ==== Sys2Proof/Machine/Dispatch.lean ====
section
/-! DEFINITION. Dispatch.lean: one arm per command of opcode_table.json, each one direct call of its meaning. -/

namespace Sys2Proof.Machine

def exec (i : Instr) (s : State) : Host.Outcome State Fault Refusal :=
  match i with
  | .bcreate id n => Sys2Proof.Machine.execBcreate id n s
  | .breset id => Sys2Proof.Machine.execBreset id s
  | .bappend id bytes => Sys2Proof.Machine.execBappend id bytes s
  | .bresizez id n => Sys2Proof.Machine.execBresizez id n s
  | .bdestroy id => Sys2Proof.Machine.execBdestroy id s
  | .bread id => Sys2Proof.Machine.execBread id s
  | .hexdec id text => Sys2Proof.Machine.execHexdec id text s
  | .hexren id => Sys2Proof.Machine.execHexren id s
  | .merge dst t tw l lw h hw => Sys2Proof.Machine.execMerge dst t tw l lw h hw s
  | .chain dst sr f => Sys2Proof.Machine.execChain dst sr f s
  | .hdr args => Sys2Proof.Machine.execHdr args s
  | .hir args => Sys2Proof.Machine.execHir args s
  | .sdr args => Sys2Proof.Machine.execSdr args s
  | .sir args => Sys2Proof.Machine.execSir args s
  | .tdr args => Sys2Proof.Machine.execTdr args s
  | .tir args => Sys2Proof.Machine.execTir args s
  | .query r => Sys2Proof.Machine.execQuery r s

end Sys2Proof.Machine
end

