-- ==== Sys2Proof/Machine/Flags.lean ====
section
/-! DEFINITION. Flags.lean: the block has no flags, condition codes or predicates (10_state.md rule R31): the only report of a command is
the status in its own response. This file gives the status codes (60_exceptions.md rule R230) and the response packet
(30_encoding.md rule R84). -/

namespace Sys2Proof.Machine

/-- The status code of an error kind (rule R230). -/
def ErrorKind.code : ErrorKind → Byte
  | .allocationError => 0x01
  | .malformedHexError => 0x02
  | .malformedValueError => 0x03
  | .unknownCommandError => 0x04
  | .unknownFieldError => 0x05
  | .malformedLineError => 0x06

/-- Every number and blob length of a result fits its `num32` field (rule R84). -/
def Result.fitsPacket : Result → Bool
  | .empty => true
  | .bytes len data => fitsNum32 len && decide (data.length = len)
  | .text chars => fitsNum32 chars.length
  | .totalBits n => fitsNum32 n
  | .store numBits tdi tdo mask =>
    fitsNum32 numBits && fitsNum32 tdi.length && fitsNum32 tdo.length && fitsNum32 mask.length

/-- What follows the status byte of an `ok` response (rule R84), for a result that fits. -/
def Result.fields : Result → Bytes
  | .empty => []
  | .bytes len data => encNum32 len ++ data
  | .text chars => encBlob chars
  | .totalBits n => encNum32 n
  | .store numBits tdi tdo mask => encNum32 numBits ++ encBlob tdi ++ encBlob tdo ++ encBlob mask

/-- The response packet (rule R84): the status byte, and the result where the status is ok. A result that does not fit its fields
has no packet, so no number is ever cut. -/
def Response.packet : Response → Option Bytes
  | .ok r => if r.fitsPacket then some (0x00 :: r.fields) else none
  | .error k => some [k.code]

/-- The packet on the response side of the port. Where `MAXBYTES` is "no bound" the packet level is left out and the response is
`State.response`, with its natural numbers (rule R84; log entry 24). -/
def State.responsePacket (s : State) : Option Bytes :=
  match s.maxBytes with
  | none => none
  | some _ => s.response.bind Response.packet

end Sys2Proof.Machine
end

