-- ==== Sys2Proof/Machine/Port.lean ====
section
/-! DEFINITION. Port.lean: what the block does with one event of the host: a command packet (00_scope.md rule R5) or the reset input
(70_reset_and_hazards.md rule R260). -/

namespace Sys2Proof.Machine

/-- One command packet, from its bytes to its response (rules R5, R95, R96). -/
def runPacket (p : Packet) (s : State) : Out :=
  match decodePacket p with
  | .instr i => exec i s
  | .unknownLine => execUnknownLine s
  | .reject _ => .refused .badPacket

/-- One event of the host. -/
def runEvent (ev : HostEvent) (s : State) : Out :=
  match ev with
  | .command p => runPacket p s
  | .reset => .next s.resetBlock

end Sys2Proof.Machine
end

