-- ==== Sys2Proof/Machine/Step.lean ====
section
/-! DEFINITION. Step.lean: one step is one whole command (00_scope.md rule R5): the host's next event is taken and run to completion. -/

namespace Sys2Proof.Machine

/-- One step. With nothing more to come from the host the block is idle and nothing changes (rule R261; log entry 10). -/
def step (s : State) : Host.Outcome State Fault Refusal :=
  match s.script with
  | [] => .next s
  | ev :: rest => runEvent ev (s.withScript rest)

/-- The state in which the next step runs the table word's packet: the host presents it next (log entries 2 and 16). -/
def State.withFetchWord (s : State) (nbits w : Nat) : State :=
  s.withScript (.command (tablePacket nbits w) :: s.script)

end Sys2Proof.Machine
end

