-- ==== Sys2Proof/Machine/Instances.lean ====
section
/-! DEFINITION. Instances.lean: several instances of the block (60_exceptions.md rule R245): the product of independent copies, with one
instance at a time taking a step. -/

namespace Sys2Proof.Machine

/-- Instance `k` takes one step and every other instance stays as it is; with no instance `k` nothing happens. -/
def stepInstance (k : Nat) (ms : List State) : Host.Outcome (List State) Fault Refusal :=
  match ms[k]? with
  | none => .next ms
  | some m =>
    match step m with
    | .next m' => .next (ms.set k m')
    | .fault r => .fault r
    | .refused r => .refused r

end Sys2Proof.Machine
end

