-- ==== Sys2Proof/Safety.lean ====
section
/-! DEFINITION. Safety.lean: the terms the claims use: the invariants (10_state.md rules R22, R25), reading one byte at a location, which
buffer or store a command may write (rule R29), operands described by the buffers they name, well-formed packets as rule R95 lists
them, and good pairs of a command line. -/

namespace Sys2Proof.Machine

/-! ## Invariants -/

/-- The parameters are in the ranges of 00_scope.md rule R6. -/
def ParamsInRange (s : State) : Prop :=
  1 ≤ s.nscratch ∧ s.nscratch ≤ 128 ∧ ∀ m, s.maxBytes = some m → 1 ≤ m ∧ m < 2 ^ 29

/-- The invariant of a live buffer (rule R25): the length within the capacity, the capacity within `MAXBYTES`. -/
abbrev Buf.wf (maxBytes : Option Nat) (b : Buf) : Prop := b.len ≤ b.cap ∧ fits maxBytes b.cap = true

/-- The memory is well formed: every store buffer has `ceil8(numBits)` bytes (rule R22), and every live buffer meets rule R25. The
contents of a buffer are one list of bytes, so equal contents are equal data with no further canonical form (log entry 15). -/
abbrev Memory.wf (s : State) : Prop :=
  (∀ r ∈ Reg.all, ∀ f ∈ Field.all,
    ((s.store r).field f).len = ceil8 (s.store r).numBits ∧ Buf.wf s.maxBytes ((s.store r).field f)) ∧
  ∀ v ∈ s.scratch, ∀ b ∈ v.toList, Buf.wf s.maxBytes b

/-- The invariant of the machine. -/
def Inv (s : State) : Prop := ParamsInRange s ∧ Memory.wf s

/-! ## Locations (20_memory.md rule R50) -/

/-- The live buffer an id names, if any. -/
def State.bufAt (s : State) (id : Byte) : Option Buf :=
  match bufRef s.nscratch id with
  | none => none
  | some (.store r f) => some ((s.store r).field f)
  | some (.scratch i) => s.slot i

/-- The byte at a location (buffer id, byte offset); none where there is no such location. -/
def State.readByte (s : State) (id : Byte) (off : Nat) : Option Byte :=
  match s.bufAt id with
  | none => none
  | some b => b.data[off]?

/-! ## Operands described by the buffers they name (rule R30) -/

/-- `id` is the id of scratch buffer `B[i]`, which is live and is `b`. -/
abbrev ScratchHolds (s : State) (id : Byte) (i : Nat) (b : Buf) : Prop := id.toNat = 0x80 + i ∧ s.slot i = some b

/-- `id` is the id of scratch buffer `B[i]`, which the block has and which is not live. -/
abbrev ScratchFree (s : State) (id : Byte) (i : Nat) : Prop := id.toNat = 0x80 + i ∧ i < s.nscratch ∧ s.slot i = none

/-- `id` names a buffer that can be read, and it is `b`: a live scratch buffer or a store buffer. -/
def Readable (s : State) (id : Byte) (b : Buf) : Prop :=
  (∃ i, ScratchHolds s id i b) ∨ ∃ r f, id.toNat = 3 * r.index + f.index ∧ b = (s.store r).field f

/-- `id` names no buffer of a block with this many scratch buffers. -/
abbrev NamesNoBuffer (s : State) (id : Byte) : Prop :=
  (0x12 ≤ id.toNat ∧ id.toNat < 0x80) ∨ 0x80 + s.nscratch ≤ id.toNat

/-- `id` names a store buffer. -/
abbrev NamesStore (id : Byte) : Prop := id.toNat < 0x12

/-- `resolve(id, WRITE)` refuses with `r` (rule R120). -/
def WriteRefusedWith (s : State) (id : Byte) (r : Refusal) : Prop :=
  (r = .badBufferId ∧ NamesNoBuffer s id) ∨ (r = .storeBufferWrite ∧ NamesStore id) ∨
    (r = .notLive ∧ ∃ i, ScratchFree s id i)

/-- `resolve(id, READ)` refuses with `r` (rule R120). -/
def ReadRefusedWith (s : State) (id : Byte) (r : Refusal) : Prop :=
  (r = .badBufferId ∧ NamesNoBuffer s id) ∨ (r = .notLive ∧ ∃ i, ScratchFree s id i)

/-! ## What a command may write (rule R29) -/

/-- The id of the scratch buffer a command writes, where it writes one. -/
def writtenBuffer : Instr → Option Byte
  | .bcreate id _ => some id
  | .breset id => some id
  | .bappend id _ => some id
  | .bresizez id _ => some id
  | .bdestroy id => some id
  | .bread _ => none
  | .hexdec id _ => some id
  | .hexren _ => none
  | .merge dst _ _ _ _ _ _ => some dst
  | .chain dst _ _ => some dst
  | .hdr _ => none
  | .hir _ => none
  | .sdr _ => none
  | .sir _ => none
  | .tdr _ => none
  | .tir _ => none
  | .query _ => none

/-- The kinds a register command can raise (60_exceptions.md rule R230). -/
def lineKinds : List ErrorKind :=
  [.allocationError, .malformedHexError, .malformedValueError, .unknownFieldError, .malformedLineError]

/-- The error kinds a command can raise (60_exceptions.md rule R230); `UnknownCommandError` is raised before a register command is
identified, so by none of the 17. -/
def mayRaise : Instr → List ErrorKind
  | .bcreate _ _ => [.allocationError]
  | .breset _ => []
  | .bappend _ _ => [.allocationError]
  | .bresizez _ _ => [.allocationError]
  | .bdestroy _ => []
  | .bread _ => []
  | .hexdec _ _ => [.allocationError, .malformedHexError]
  | .hexren _ => []
  | .merge _ _ _ _ _ _ _ => [.allocationError]
  | .chain _ _ _ => [.allocationError]
  | .hdr _ => lineKinds
  | .hir _ => lineKinds
  | .sdr _ => lineKinds
  | .sir _ => lineKinds
  | .tdr _ => lineKinds
  | .tir _ => lineKinds
  | .query _ => []

/-- The bytes a command needs in one buffer, `need`, the only thing `AllocationError` depends on beside `MAXBYTES` (60_exceptions.md rule
R231). A line needs anything only where it changes the width. -/
def Needs (s : State) (need : Nat) : Instr → Prop
  | .bcreate _ n => need = n
  | .breset _ => False
  | .bappend id V => ∃ i b, ScratchHolds s id i b ∧ need = b.len + V.length
  | .bresizez _ n => need = n
  | .bdestroy _ => False
  | .bread _ => False
  | .hexdec _ text => (decodeHex text).isSome = true ∧ need = text.length / 2
  | .hexren _ => False
  | .merge _ _ tw _ lw _ hw => need = ceil8 (tw + lw + hw)
  | .chain _ .instruction _ => need = ceil8 ((s.store .tir).numBits + (s.store .sir).numBits + (s.store .hir).numBits)
  | .chain _ .data _ => need = ceil8 ((s.store .tdr).numBits + (s.store .sdr).numBits + (s.store .hdr).numBits)
  | .hdr args => lineNeeds .hdr args
  | .hir args => lineNeeds .hir args
  | .sdr args => lineNeeds .sdr args
  | .sir args => lineNeeds .sir args
  | .tdr args => lineNeeds .tdr args
  | .tir args => lineNeeds .tir args
  | .query _ => False
where
  /-- What a line for store `r` needs: its new width's bytes. -/
  lineNeeds (r : Reg) (args : List Token) : Prop :=
    ∃ w rest n, args = w :: rest ∧ decimal w = some n ∧ n ≠ (s.store r).numBits ∧ need = ceil8 n

/-- The shape of the result a command returns with status ok (30_encoding.md rule R84). -/
def resultFits : Instr → Result → Prop
  | .bread _, r => ∃ len data, r = .bytes len data
  | .hexren _, r => ∃ chars, r = .text chars
  | .merge _ _ _ _ _ _ _, r => ∃ n, r = .totalBits n
  | .chain _ _ _, r => ∃ n, r = .totalBits n
  | .query _, r => ∃ n a b c, r = .store n a b c
  | .bcreate _ _, r => r = .empty
  | .breset _, r => r = .empty
  | .bappend _ _, r => r = .empty
  | .bresizez _ _, r => r = .empty
  | .bdestroy _, r => r = .empty
  | .hexdec _ _, r => r = .empty
  | .hdr _, r => r = .empty
  | .hir _, r => r = .empty
  | .sdr _, r => r = .empty
  | .sir _, r => r = .empty
  | .tdr _, r => r = .empty
  | .tir _, r => r = .empty

/-! ## Capacity is hidden (rule R34) -/

/-- The buffer with its capacity forgotten. -/
def Buf.forgetCap (b : Buf) : Buf := { b with cap := 0 }

/-- The Bit-Store with its three capacities forgotten. -/
def BitStore.forgetCap (x : BitStore) : BitStore :=
  { x with tdi := x.tdi.forgetCap, tdo := x.tdo.forgetCap, mask := x.mask.forgetCap }

/-- The state with every capacity forgotten. -/
def State.forgetCap (s : State) : State :=
  { s with
    stores :=
      { hir := s.stores.hir.forgetCap, hdr := s.stores.hdr.forgetCap, sir := s.stores.sir.forgetCap,
        sdr := s.stores.sdr.forgetCap, tir := s.stores.tir.forgetCap, tdr := s.stores.tdr.forgetCap }
    scratch := s.scratch.map (Option.map Buf.forgetCap) }

/-- An outcome seen through a view of its next state. -/
def outView {α : Type} (view : State → α) : Out → Host.Outcome α Fault Refusal
  | .next s => .next (view s)
  | .fault r => .fault r
  | .refused r => .refused r

/-! ## Packets, as rule R95 lists them -/

/-- Well formed: an opcode of the table, the length its format gives it, no reserved `sel` or `reg` value. -/
def PacketWellFormed : Packet → Prop
  | [] => False
  | op :: rest =>
    (op ∈ ([0x02, 0x05, 0x06, 0x11] : Bytes) ∧ rest.length = 1) ∨
    (op ∈ ([0x01, 0x04] : Bytes) ∧ rest.length = 5) ∨
    (op ∈ ([0x03, 0x10] : Bytes) ∧ 5 ≤ rest.length ∧ rest.length = 5 + val ((rest.drop 1).take 4)) ∨
    (op = 0x20 ∧ rest.length = 16) ∨
    (op = 0x21 ∧ ∃ dst sel, rest = [dst, sel] ∧ sel.toNat / 8 = 0 ∧ sel.toNat % 4 ≠ 3) ∨
    (op = 0x30 ∧ 4 ≤ rest.length ∧ rest.length = 4 + val (rest.take 4)) ∨
    (op = 0x31 ∧ ∃ r, rest = [r] ∧ r.toNat ≤ 5)

/-! ## Command lines -/

/-- The two tokens of a pair: the keyword, and the hex text in its parentheses (30_encoding.md rule R86). -/
def pairTokens (ps : List (Field × Bytes)) : List Token :=
  ps.flatMap fun p => [keyword p.1, 0x28#8 :: (p.2 ++ [0x29#8])]

/-- The pairs of a line of width `n` that raise nothing: no keyword twice, and each hex text decodes to `ceil8(n)` bytes. -/
def GoodPairs (n : Nat) (ps : List (Field × Bytes)) : Prop :=
  (ps.map Prod.fst).Nodup ∧ ∀ p ∈ ps, ∃ Y, decodeHex p.2 = some Y ∧ Y.length = ceil8 n

/-- The width token of a line for store `r` that raises nothing: it reads `n`, and a change to `n` fits `MAXBYTES`. -/
def GoodWidth (s : State) (r : Reg) (w : Token) (n : Nat) : Prop :=
  decimal w = some n ∧ (n = (s.store r).numBits ∨ fits s.maxBytes (ceil8 n) = true)

/-- `uppercase` of a hex digit character (41_hex_codec.md rule R143). -/
def upperHex (c : Byte) : Byte := if 0x61 ≤ c.toNat ∧ c.toNat ≤ 0x66 then BitVec.ofNat 8 (c.toNat - 0x20) else c

end Sys2Proof.Machine
end

