-- ==== Sys2Proof/Certificates/Slice0/Obligations.lean ====
section
/-! DEFINITION. Obligations.lean: the statements for the provers. Each docstring names the rule of spec/ it formalises. -/

open Sys2Proof Sys2Proof.Machine

/-! ## Encoding -/

/-- 95_test_vectors.md section 2.7: packets written out there decode to the commands named there, one or more for each family. -/
def Obligations.SpecPacketsDecode : Prop :=
  decodePacket [0x01, 0x80, 0x00, 0x00, 0x00, 0x10] = .instr (.bcreate 0x80 16) ∧
  decodePacket [0x03, 0x80, 0x00, 0x00, 0x00, 0x02, 0x35, 0xF1] = .instr (.bappend 0x80 [0x35, 0xF1]) ∧
  decodePacket [0x10, 0x82, 0x00, 0x00, 0x00, 0x08, 0x46, 0x31, 0x43, 0x32, 0x45, 0x30, 0x39, 0x33] =
    .instr (.hexdec 0x82 [0x46, 0x31, 0x43, 0x32, 0x45, 0x30, 0x39, 0x33]) ∧
  decodePacket [0x20, 0x80, 0x81, 0x00, 0x00, 0x00, 0x03, 0x82, 0x00, 0x00, 0x00, 0x20, 0x83, 0x00, 0x00, 0x00, 0x01] =
    .instr (.merge 0x80 0x81 3 0x82 32 0x83 1) ∧
  decodePacket [0x21, 0x80, 0x04] = .instr (.chain 0x80 .data .tdi) ∧
  decodePacket [0x30, 0x00, 0x00, 0x00, 0x0E, 0x48, 0x44, 0x52, 0x20, 0x38, 0x20, 0x54, 0x44, 0x49, 0x20, 0x28, 0x61, 0x61, 0x29] =
    .instr (.hdr [[0x38], [0x54, 0x44, 0x49], [0x28, 0x61, 0x61, 0x29]]) ∧
  decodePacket [0x31, 0x01] = .instr (.query .hdr)

/-- Rules R82, R83 and R88: no bit of an encoding is dropped. Every command a packet can carry is read back from its own packet, with every
operand at every value the packet admits. -/
def Obligations.DecodeOfEncode : Prop :=
  ∀ i : Instr, wellFormed i = true → decodePacket (encode i) = .instr i

/-- Rules R82 and R83: for every command but a command line, whose spacing is free (rule R87), the packet is the only one that decodes to
it. -/
def Obligations.EncodeOfDecode : Prop :=
  ∀ (p : Packet) (i : Instr), decodePacket p = .instr i → (∀ r args, i ≠ lineInstr r args) → encode i = p

/-- Rules R81 and R87: whatever the decoder reads is an instruction some packet carries. -/
def Obligations.DecodedInstrIsWellFormed : Prop :=
  ∀ (p : Packet) (i : Instr), decodePacket p = .instr i → wellFormed i = true

/-- Rule R94: the four bytes of a `num32` field at increasing offsets, big-endian and unsigned, in every format that has one. -/
def Obligations.Num32FieldsAreBigEndian : Prop :=
  ∀ a b c d : Byte,
    let n := a.toNat * 2 ^ 24 + b.toNat * 2 ^ 16 + c.toNat * 2 ^ 8 + d.toNat
    n < 2 ^ 32 ∧
    (∀ id, decodePacket [0x01, id, a, b, c, d] = .instr (.bcreate id n)) ∧
    (∀ id, decodePacket [0x04, id, a, b, c, d] = .instr (.bresizez id n)) ∧
    (∀ id V, V.length = n → decodePacket (0x03 :: id :: a :: b :: c :: d :: V) = .instr (.bappend id V)) ∧
    (∀ id V, V.length = n → decodePacket (0x10 :: id :: a :: b :: c :: d :: V) = .instr (.hexdec id V)) ∧
    (∀ text, text.length = n → decodePacket (0x30 :: a :: b :: c :: d :: text) = decodeLine text) ∧
    (∀ dst t l h, decodePacket [0x20, dst, t, a, b, c, d, l, a, b, c, d, h, a, b, c, d] = .instr (.merge dst t n l n h n))

/-- Rules R85 and R95: a packet that is not well formed is refused with `BadPacket` and no other packet is. -/
def Obligations.MalformedPacketsAreRefused : Prop :=
  ∀ (p : Packet) (s : State),
    (¬ PacketWellFormed p → runPacket p s = .refused .badPacket) ∧
    (PacketWellFormed p → runPacket p s ≠ .refused .badPacket)

/-- Rule R87: the tokens of a line are its maximal runs of characters that are not whitespace, in order. Which characters are whitespace is
decision D9 (log entry 7). -/
def Obligations.TokensAreMaximalRuns : Prop :=
  (∀ c : Byte, isWs c = true ↔ c ∈ ([0x09, 0x0A, 0x0B, 0x0C, 0x0D, 0x20] : Bytes)) ∧
  tokens [] = [] ∧
  (∀ text : Bytes, ∀ t ∈ tokens text, t ≠ [] ∧ ∀ c ∈ t, isWs c = false) ∧
  (∀ (x y : Bytes) (c : Byte), isWs c = true → tokens (x ++ c :: y) = tokens x ++ tokens y) ∧
  (∀ t : Bytes, t ≠ [] → (∀ c ∈ t, isWs c = false) → tokens t = [t])

/-- Rule R191 (step 1 of a line): the first token, compared as a whole, selects the command of its store, whose index is rule R23's; no
token, or any other first token, ends in `UnknownCommandError` with no state changed. -/
def Obligations.FirstTokenSelectsTheStore : Prop :=
  (∀ (text : Bytes) (s : State), text.length < 2 ^ 32 →
    (∀ (r : Reg) (args : List Token), tokens text = r.token :: args →
      runPacket (0x30 :: encBlob text) s = exec (lineInstr r args) s) ∧
    ((∀ (r : Reg) (args : List Token), tokens text ≠ r.token :: args) →
      runPacket (0x30 :: encBlob text) s = .next { s with response := some (.error .unknownCommandError) })) ∧
  Reg.token .hdr = [0x48, 0x44, 0x52] ∧ Reg.token .hir = [0x48, 0x49, 0x52] ∧
  Reg.token .sdr = [0x53, 0x44, 0x52] ∧ Reg.token .sir = [0x53, 0x49, 0x52] ∧
  Reg.token .tdr = [0x54, 0x44, 0x52] ∧ Reg.token .tir = [0x54, 0x49, 0x52] ∧
  Reg.index .hir = 0 ∧ Reg.index .hdr = 1 ∧ Reg.index .sir = 2 ∧ Reg.index .sdr = 3 ∧ Reg.index .tir = 4 ∧ Reg.index .tdr = 5

/-! ## Steps, the port and reset -/

/-- Rules R5 and R61: when the packet the host presents decodes to an instruction, the step is `exec` of it, on the state with that packet
taken from the host's script (the script is the model's own field, log entry 2). -/
def Obligations.StepRunsTheDecodedInstruction : Prop :=
  ∀ (s : State) (p : Packet) (rest : List HostEvent) (i : Instr),
    s.script = .command p :: rest → decodePacket p = .instr i → step s = exec i { s with script := rest }

/-- Rules R95, R96, R260 and R261: what a step does with every other event: a line that names no register command answers
`UnknownCommandError`, a malformed packet is refused, the reset input resets, and with nothing to come (the model's idle step, log entry 10)
nothing changes. -/
def Obligations.StepOnOtherEvents : Prop :=
  (∀ (s : State) (p : Packet) (rest : List HostEvent), s.script = .command p :: rest → decodePacket p = .unknownLine →
    step s = .next { s with script := rest, response := some (.error .unknownCommandError) }) ∧
  (∀ (s : State) (p : Packet) (rest : List HostEvent) (w : PacketFlaw), s.script = .command p :: rest →
    decodePacket p = .reject w → step s = .refused .badPacket) ∧
  (∀ (s : State) (rest : List HostEvent), s.script = .reset :: rest →
    step s = .next ({ s with script := rest } : State).resetBlock) ∧
  (∀ s : State, s.script = [] → step s = .next s)

/-- Rule R35: the values after reset. The capacities are 0 in the rule; the parameters and the port are the model's own (log entries 1 to 3)
and not stated here. -/
def Obligations.ResetValuesAreZero : Prop :=
  (∀ r f, (State.reset.store r).numBits = 0 ∧ ((State.reset.store r).field f).len = 0 ∧
    ((State.reset.store r).field f).data = [] ∧ ((State.reset.store r).field f).cap = 0) ∧
  ∀ i, State.reset.slot i = none

/-- Rule R260: the reset input puts every piece of state at the value of rule R35, whatever it was. That the parameters and the host's
script stay and no response stands is the model's choice (log entry 13). -/
def Obligations.ResetInputClearsTheBlock : Prop :=
  ∀ (s : State) (rest : List HostEvent), s.script = .reset :: rest →
    ∃ t, step s = .next t ∧
      (∀ r f, (t.store r).numBits = 0 ∧ (t.store r).field f = { cap := 0, data := [] }) ∧
      (∀ i, t.slot i = none) ∧ t.nscratch = s.nscratch ∧ t.maxBytes = s.maxBytes ∧ t.response = none ∧ t.script = rest

/-! ## Byte Buffer -/

/-- Rule R30: the buffer-id map. -/
def Obligations.BufferIdMap : Prop :=
  (∀ r f, (storeId r f).toNat = 3 * r.index + f.index ∧ ∀ n, bufRef n (storeId r f) = some (.store r f)) ∧
  (∀ n i id, bufRef n id = some (.scratch i) ↔ id.toNat = 0x80 + i ∧ i < n) ∧
  (∀ n id, bufRef n id = none ↔ (0x12 ≤ id.toNat ∧ id.toNat < 0x80) ∨ 0x80 + n ≤ id.toNat) ∧
  Reg.all.map Reg.index = [0, 1, 2, 3, 4, 5] ∧ Field.all.map Field.index = [0, 1, 2]

/-- Rule R26: no two ids name the same storage, and a write to one scratch buffer changes no byte of any other buffer. -/
def Obligations.BuffersAreNotShared : Prop :=
  (∀ n id id' x, bufRef n id = some x → bufRef n id' = some x → id = id') ∧
  ∀ (s : State) (i : Nat) (v : Option Buf) (id : Byte), id.toNat ≠ 0x80 + i →
    ∀ off, (s.setSlot i v).readByte id off = s.readByte id off

/-- Rule R120: operand resolution refuses in every command that carries a buffer id: an id that names no buffer, a store buffer that would
be written, a scratch buffer that is not live. (`BCREATE`'s exception is rule R122.) Which reason is reported where several apply (a bad destination
with any operands, a bad tail with any line and head) is the model's choice, which rule R240 leaves to it: log entry 12. -/
def Obligations.OperandResolutionRefuses : Prop :=
  ∀ (s : State) (id : Byte) (r : Refusal),
    (WriteRefusedWith s id r →
      exec (.breset id) s = .refused r ∧ (∀ V, exec (.bappend id V) s = .refused r) ∧
      (∀ n, exec (.bresizez id n) s = .refused r) ∧ exec (.bdestroy id) s = .refused r ∧
      (∀ text, exec (.hexdec id text) s = .refused r) ∧
      (∀ t tw l lw h hw, exec (.merge id t tw l lw h hw) s = .refused r) ∧
      (∀ sr f, exec (.chain id sr f) s = .refused r) ∧
      (r ≠ .notLive → ∀ n, exec (.bcreate id n) s = .refused r)) ∧
    (ReadRefusedWith s id r →
      exec (.bread id) s = .refused r ∧ exec (.hexren id) s = .refused r ∧
      ∀ dst i d, ScratchHolds s dst i d →
        (∀ tw l lw h hw, exec (.merge dst id tw l lw h hw) s = .refused r) ∧
        (∀ t bt tw lw h hw, Readable s t bt → exec (.merge dst t tw id lw h hw) s = .refused r) ∧
        (∀ t bt tw l bl lw hw, Readable s t bt → Readable s l bl → exec (.merge dst t tw l lw id hw) s = .refused r))

/-- Rule R121: `Ensure` fails exactly where `MAXBYTES` is finite and the need is above it; otherwise the capacity becomes the larger of the
old one and the need, and the contents stay. -/
def Obligations.EnsureFailsOnlyAboveMaxBytes : Prop :=
  ∀ (maxBytes : Option Nat) (b : Buf) (need : Nat),
    (ensure maxBytes b need = none ↔ ∃ m, maxBytes = some m ∧ m < need) ∧
    ∀ b', ensure maxBytes b need = some b' →
      b'.data = b.data ∧ (need ≤ b.cap → b' = b) ∧ (b.cap < need → b'.cap = need)

/-- Rule R52: `MemRead` and `MemWrite` are defined exactly below the length; a read gives the bytes in order and changes nothing, a write
changes those bytes and nothing else. The spec marks the rule as its own inference ("derived: from 10_state.md rule R25"). -/
def Obligations.MemoryPrimitives : Prop :=
  ∀ b : Buf,
    (∀ off n, (b.memRead off n).isSome = true ↔ off + n ≤ b.len) ∧
    (∀ off n X, b.memRead off n = some X → X.length = n ∧ ∀ k, k < n → X[k]? = b.data[off + k]?) ∧
    (∀ off v, (b.memWrite off v).isSome = true ↔ off + v.length ≤ b.len) ∧
    ∀ off v b', b.memWrite off v = some b' →
      b'.len = b.len ∧ b'.cap = b.cap ∧ b'.memRead off v.length = some v ∧
      ∀ k, (k < off ∨ off + v.length ≤ k) → b'.data[k]? = b.data[k]?

/-- Rule R122, `BCREATE`: a slot that is not live becomes a live empty buffer of capacity `n`; above `MAXBYTES` it stays not live and the
status is `AllocationError`; a live slot is refused. -/
def Obligations.CreateMakesAnEmptyBuffer : Prop :=
  (∀ id n, n < 2 ^ 32 → decodePacket (0x01 :: id :: be n 4) = .instr (.bcreate id n)) ∧
  ∀ (s : State) (id : Byte) (i n : Nat),
    (ScratchFree s id i → fits s.maxBytes n = true →
      exec (.bcreate id n) s =
        .next { s with scratch := s.scratch.set i (some { cap := n, data := [] }), response := some (.ok .empty) }) ∧
    (ScratchFree s id i → fits s.maxBytes n = false →
      exec (.bcreate id n) s = .next { s with response := some (.error .allocationError) }) ∧
    (∀ b, ScratchHolds s id i b → exec (.bcreate id n) s = .refused .alreadyLive) ∧
    (NamesStore id → exec (.bcreate id n) s = .refused .storeBufferWrite) ∧
    (NamesNoBuffer s id → exec (.bcreate id n) s = .refused .badBufferId)

/-- Rule R123, `BRESET`: the length becomes 0 and the capacity is kept. -/
def Obligations.ResetTruncatesToZero : Prop :=
  ∀ (s : State) (id : Byte) (i : Nat) (b : Buf),
    decodePacket [0x02, id] = .instr (.breset id) ∧
    (ScratchHolds s id i b →
      exec (.breset id) s =
        .next { s with scratch := s.scratch.set i (some { cap := b.cap, data := [] }), response := some (.ok .empty) })

/-- Rule R124, `BAPPEND`: the bytes go on at the end, in packet order, and the capacity grows to exact need; above `MAXBYTES` the state is
unchanged. The bytes the buffer already held stay where they are, and an empty append changes nothing and cannot fail. -/
def Obligations.AppendExtendsTheBuffer : Prop :=
  (∀ id V, V.length < 2 ^ 32 → decodePacket (0x03 :: id :: (be V.length 4 ++ V)) = .instr (.bappend id V)) ∧
  ∀ (s : State) (id : Byte) (i : Nat) (b : Buf) (V : Bytes), ScratchHolds s id i b →
    (fits s.maxBytes (b.len + V.length) = true →
      exec (.bappend id V) s =
        .next { s with
          scratch := s.scratch.set i (some { cap := max b.cap (b.len + V.length), data := b.data ++ V })
          response := some (.ok .empty) } ∧
      ∀ t, exec (.bappend id V) s = .next t →
        (∀ k, k < b.len → t.readByte id k = s.readByte id k) ∧ ∀ k, t.readByte id (b.len + k) = V[k]?) ∧
    (fits s.maxBytes (b.len + V.length) = false →
      exec (.bappend id V) s = .next { s with response := some (.error .allocationError) }) ∧
    (Buf.wf s.maxBytes b → exec (.bappend id []) s = .next { s with response := some (.ok .empty) })

/-- Rule R125, `BRESIZEZ`: the length becomes `n` and every byte is zero, the ones already held included; above `MAXBYTES` the state is
unchanged. -/
def Obligations.ResizeZeroFills : Prop :=
  (∀ id n, n < 2 ^ 32 → decodePacket (0x04 :: id :: be n 4) = .instr (.bresizez id n)) ∧
  ∀ (s : State) (id : Byte) (i : Nat) (b : Buf) (n : Nat), ScratchHolds s id i b →
    (fits s.maxBytes n = true →
      exec (.bresizez id n) s =
        .next { s with
          scratch := s.scratch.set i (some { cap := max b.cap n, data := List.replicate n 0 })
          response := some (.ok .empty) }) ∧
    (fits s.maxBytes n = false →
      exec (.bresizez id n) s = .next { s with response := some (.error .allocationError) }) ∧
    exec (.bresizez id 0) s = exec (.breset id) s

/-- Rule R126, `BDESTROY`: the slot is not live afterwards and holds no value, so that a `BCREATE` of it finds nothing of the old contents.
-/
def Obligations.DestroyReleasesTheSlot : Prop :=
  ∀ (s : State) (id : Byte) (i : Nat) (b : Buf),
    decodePacket [0x05, id] = .instr (.bdestroy id) ∧
    (ScratchHolds s id i b →
      exec (.bdestroy id) s = .next { s with scratch := s.scratch.set i none, response := some (.ok .empty) } ∧
      ∀ t, exec (.bdestroy id) s = .next t →
        (∀ off, t.readByte id off = none) ∧ exec (.bdestroy id) t = .refused .notLive ∧ ScratchFree t id i)

/-- Rule R127, `BREAD`: the length and all the bytes of a live scratch buffer or a store buffer, and no state changed. -/
def Obligations.ReadReturnsTheBuffer : Prop :=
  ∀ (s : State) (id : Byte) (b : Buf),
    decodePacket [0x06, id] = .instr (.bread id) ∧
    (Readable s id b →
      exec (.bread id) s = .next { s with response := some (.ok (.bytes b.len b.data)) } ∧
      (∀ off, b.data[off]? = s.readByte id off))

/-! ## Hex Codec -/

/-- Rule R140: the digit values and the digits. -/
def Obligations.HexDigitValues : Prop :=
  ∀ c : Byte,
    (0x30 ≤ c.toNat ∧ c.toNat ≤ 0x39 → hexVal c = some (c.toNat - 0x30)) ∧
    (0x41 ≤ c.toNat ∧ c.toNat ≤ 0x46 → hexVal c = some (c.toNat - 0x41 + 10)) ∧
    (0x61 ≤ c.toNat ∧ c.toNat ≤ 0x66 → hexVal c = some (c.toNat - 0x61 + 10)) ∧
    (¬ (0x30 ≤ c.toNat ∧ c.toNat ≤ 0x39) → ¬ (0x41 ≤ c.toNat ∧ c.toNat ≤ 0x46) → ¬ (0x61 ≤ c.toNat ∧ c.toNat ≤ 0x66) →
      hexVal c = none) ∧
    ∀ v, v < 16 → (hexDigit v).toNat = if v ≤ 9 then 0x30 + v else 0x41 + (v - 10)

/-- Rule R141, `HEXDEC`: malformed text leaves the target live and empty with its old capacity; well-formed text is decoded pair by pair,
first pair first, and stored where it fits `MAXBYTES`, and otherwise the target is left empty in the same way. Malformed text is reported
before the size. -/
def Obligations.HexdecDecodesIntoTheBuffer : Prop :=
  (∀ id text, text.length < 2 ^ 32 → decodePacket (0x10 :: id :: (be text.length 4 ++ text)) = .instr (.hexdec id text)) ∧
  ∀ (s : State) (id : Byte) (i : Nat) (b : Buf) (text : Bytes), ScratchHolds s id i b →
    ((text.length % 2 = 1 ∨ ∃ c ∈ text, hexVal c = none) →
      exec (.hexdec id text) s =
        .next { s with
          scratch := s.scratch.set i (some { cap := b.cap, data := [] })
          response := some (.error .malformedHexError) }) ∧
    (text.length % 2 = 0 → (∀ c ∈ text, (hexVal c).isSome = true) →
      ∃ Y : Bytes, Y.length = text.length / 2 ∧
        (∀ k, k < Y.length → ∃ x y, text[2 * k]?.bind hexVal = some x ∧ text[2 * k + 1]?.bind hexVal = some y ∧
          (Y.getD k 0).toNat = 16 * x + y) ∧
        (fits s.maxBytes Y.length = true →
          exec (.hexdec id text) s =
            .next { s with
              scratch := s.scratch.set i (some { cap := max b.cap Y.length, data := Y })
              response := some (.ok .empty) }) ∧
        (fits s.maxBytes Y.length = false →
          exec (.hexdec id text) s =
            .next { s with
              scratch := s.scratch.set i (some { cap := b.cap, data := [] })
              response := some (.error .allocationError) }))

/-- Rule R142, `HEXREN`: two upper-case digits a byte, high nibble first, in buffer order, all bytes of the buffer, no state changed. -/
def Obligations.HexrenRendersTheBuffer : Prop :=
  ∀ (s : State) (id : Byte) (b : Buf),
    decodePacket [0x11, id] = .instr (.hexren id) ∧
    (Readable s id b →
      ∃ T : Bytes, exec (.hexren id) s = .next { s with response := some (.ok (.text T)) } ∧ T.length = 2 * b.len ∧
        ∀ k, k < b.len →
          T[2 * k]? = some (hexDigit ((b.data.getD k 0).toNat / 16)) ∧
          T[2 * k + 1]? = some (hexDigit ((b.data.getD k 0).toNat % 16)))

/-- Rule R143: rendering a decoded text gives the text in upper case, and decoding a rendered buffer gives the buffer. The spec marks the
second half as its own inference ("derived: from rules R140 to R142"). -/
def Obligations.HexRoundTrip : Prop :=
  (∀ text Y, decodeHex text = some Y → renderHex Y = text.map upperHex) ∧
  (∀ Y, decodeHex (renderHex Y) = some Y) ∧
  ∀ text, (decodeHex text).isSome = true ↔ text.length % 2 = 0 ∧ ∀ c ∈ text, (hexVal c).isSome = true

/-! ## Bit Merge Engine -/

/-- Rule R160: the output of `pack` has exactly `ceil8(total)` bytes and, read big-endian, is the tail's low bits, then the line's, then the
head's, most significant first. -/
def Obligations.PackConcatenatesTailLineHead : Prop :=
  ∀ t l h : BitValue,
    packTotal t l h = t.width + l.width + h.width ∧
    (packBytes t l h).length = ceil8 (t.width + l.width + h.width) ∧
    val (packBytes t l h) =
      val t.bytes % 2 ^ t.width * 2 ^ (l.width + h.width) + val l.bytes % 2 ^ l.width * 2 ^ h.width + val h.bytes % 2 ^ h.width ∧
    val (packBytes t l h) < 2 ^ (t.width + l.width + h.width)

/-- Rules R55 and R162: the packed stream is right-aligned. Every output bit comes from the operand the position names, and every bit above
the total is zero. -/
def Obligations.PackIsRightAligned : Prop :=
  ∀ t l h : BitValue, t.inRange = true → l.inRange = true → h.inRange = true →
    ∀ k, k < 8 * (packBytes t l h).length →
      bitof (packBytes t l h) k =
        if k < h.width then bitof h.bytes k
        else if k < h.width + l.width then bitof l.bytes (k - h.width)
        else if k < packTotal t l h then bitof t.bytes (k - h.width - l.width)
        else 0

/-- Rule R165: the bit-serial form computes exactly `pack`. The spec marks the form as its own inference ("derived: from rules R160 and
R162"). -/
def Obligations.BitSerialFormIsPack : Prop :=
  ∀ t l h : BitValue, t.inRange = true → l.inRange = true → h.inRange = true → packSerial t l h = packBytes t l h

/-- Rule R166: the byte-wise streaming form computes exactly `pack`. The spec marks the form as its own inference ("derived: from rules R160
and R162"). -/
def Obligations.StreamingFormIsPack : Prop :=
  ∀ t l h : BitValue, t.inRange = true → l.inRange = true → h.inRange = true → packStream t l h = packBytes t l h

/-- Rule R169: additivity, identity on zero widths (with the condition of 90_conflicts.md C1), and associativity. The spec marks
associativity as its own inference ("derived: from rule R160"). -/
def Obligations.PackProperties : Prop :=
  (∀ t l h : BitValue, (packBytes t l h).length = ceil8 (t.width + l.width + h.width)) ∧
  (∀ (T H : Bytes) (l : BitValue),
    packTotal { bytes := T, width := 0 } l { bytes := H, width := 0 } = l.width ∧
    packBytes { bytes := T, width := 0 } l { bytes := H, width := 0 } = be (val l.bytes % 2 ^ l.width) (ceil8 l.width) ∧
    (l.bytes.length = ceil8 l.width → val l.bytes < 2 ^ l.width →
      packBytes { bytes := T, width := 0 } l { bytes := H, width := 0 } = l.bytes)) ∧
  ∀ a b c : BitValue, ∀ E : Bytes,
    let ab : BitValue := { bytes := packBytes a b { bytes := E, width := 0 }, width := packTotal a b { bytes := E, width := 0 } }
    packBytes ab c { bytes := E, width := 0 } = packBytes a b c ∧ packTotal ab c { bytes := E, width := 0 } = packTotal a b c

/-- Rule R161, `MERGE`: with a live destination that is no operand, readable operands and no width above its buffer, the destination holds
`pack` of the three and the total is returned; above `MAXBYTES` nothing changes; the two refusals of the rule, and either of them where both reasons apply (rule
R240). -/
def Obligations.MergePacksThreeOperands : Prop :=
  (∀ dst t tw l lw h hw, tw < 2 ^ 32 → lw < 2 ^ 32 → hw < 2 ^ 32 →
    decodePacket (0x20 :: dst :: t :: (be tw 4 ++ l :: (be lw 4 ++ h :: be hw 4))) = .instr (.merge dst t tw l lw h hw)) ∧
  ∀ (s : State) (dst t l h : Byte) (i : Nat) (d bt bl bh : Buf) (tw lw hw : Nat),
    ScratchHolds s dst i d → Readable s t bt → Readable s l bl → Readable s h bh →
    let Y := packBytes { bytes := bt.data, width := tw } { bytes := bl.data, width := lw } { bytes := bh.data, width := hw }
    let inWidth := tw ≤ 8 * bt.len ∧ lw ≤ 8 * bl.len ∧ hw ≤ 8 * bh.len
    ((dst ≠ t ∧ dst ≠ l ∧ dst ≠ h) → inWidth → fits s.maxBytes (ceil8 (tw + lw + hw)) = true →
      exec (.merge dst t tw l lw h hw) s =
        .next { s with
          scratch := s.scratch.set i (some { cap := max d.cap (ceil8 (tw + lw + hw)), data := Y })
          response := some (.ok (.totalBits (tw + lw + hw))) }) ∧
    ((dst ≠ t ∧ dst ≠ l ∧ dst ≠ h) → inWidth → fits s.maxBytes (ceil8 (tw + lw + hw)) = false →
      exec (.merge dst t tw l lw h hw) s = .next { s with response := some (.error .allocationError) }) ∧
    ((dst = t ∨ dst = l ∨ dst = h) → inWidth → exec (.merge dst t tw l lw h hw) s = .refused .destinationIsOperand) ∧
    ((dst ≠ t ∧ dst ≠ l ∧ dst ≠ h) → ¬ inWidth → exec (.merge dst t tw l lw h hw) s = .refused .widthExceedsBuffer) ∧
    ((dst = t ∨ dst = l ∨ dst = h) → ¬ inWidth →
      exec (.merge dst t tw l lw h hw) s = .refused .destinationIsOperand ∨
      exec (.merge dst t tw l lw h hw) s = .refused .widthExceedsBuffer)

/-- Rule R170, `CHAIN`: in a state that meets the invariant it never refuses on a live destination: the destination holds `pack` of the
trailer, body and header stores' field, each at its store's `numBits`, and the total is returned; above `MAXBYTES` nothing changes. That no
refusal can occur is the spec's own inference ("derived: from 10_state.md rule R22"). -/
def Obligations.ChainPacksTrailerBodyHeader : Prop :=
  (∀ dst, decodePacket [0x21, dst, 0x00] = .instr (.chain dst .instruction .tdi) ∧
    decodePacket [0x21, dst, 0x01] = .instr (.chain dst .instruction .tdo) ∧
    decodePacket [0x21, dst, 0x02] = .instr (.chain dst .instruction .mask) ∧
    decodePacket [0x21, dst, 0x04] = .instr (.chain dst .data .tdi) ∧
    decodePacket [0x21, dst, 0x05] = .instr (.chain dst .data .tdo) ∧
    decodePacket [0x21, dst, 0x06] = .instr (.chain dst .data .mask)) ∧
  ∀ (s : State) (dst : Byte) (i : Nat) (d : Buf) (f : Field), Memory.wf s → ScratchHolds s dst i d →
    ∀ (sr : ShiftReg) (tr bo he : Reg),
      ((sr = .instruction ∧ tr = .tir ∧ bo = .sir ∧ he = .hir) ∨ (sr = .data ∧ tr = .tdr ∧ bo = .sdr ∧ he = .hdr)) →
      let total := (s.store tr).numBits + (s.store bo).numBits + (s.store he).numBits
      let Y := packBytes { bytes := ((s.store tr).field f).data, width := (s.store tr).numBits }
        { bytes := ((s.store bo).field f).data, width := (s.store bo).numBits }
        { bytes := ((s.store he).field f).data, width := (s.store he).numBits }
      (fits s.maxBytes (ceil8 total) = true →
        exec (.chain dst sr f) s =
          .next { s with
            scratch := s.scratch.set i (some { cap := max d.cap (ceil8 total), data := Y })
            response := some (.ok (.totalBits total)) }) ∧
      (fits s.maxBytes (ceil8 total) = false →
        exec (.chain dst sr f) s = .next { s with response := some (.error .allocationError) }) ∧
      exec (.chain dst sr f) s =
        exec (.merge dst (storeId tr f) (s.store tr).numBits (storeId bo f) (s.store bo).numBits
          (storeId he f) (s.store he).numBits) s

/-- Rule R167: what `MERGE` gives depends on its operands' bytes and widths alone: in two blocks of one `MAXBYTES` whose operands hold the
same bytes, whatever else they hold, the responses agree, and on success the destinations hold the same bytes. -/
def Obligations.MergeDependsOnOperandsOnly : Prop :=
  ∀ (s s' : State) (dst t l h : Byte) (i : Nat) (d d' bt bl bh bt' bl' bh' : Buf) (tw lw hw : Nat) (x : State),
    s.maxBytes = s'.maxBytes → ScratchHolds s dst i d → ScratchHolds s' dst i d' →
    Readable s t bt → Readable s' t bt' → Readable s l bl → Readable s' l bl' → Readable s h bh → Readable s' h bh' →
    bt.data = bt'.data → bl.data = bl'.data → bh.data = bh'.data →
    exec (.merge dst t tw l lw h hw) s = .next x →
    ∃ x', exec (.merge dst t tw l lw h hw) s' = .next x' ∧ x'.response = x.response ∧
      ((∃ r, x.response = some (.ok r)) → ∀ off, x'.readByte dst off = x.readByte dst off)

/-! ## Register Parse Engine -/

/-- Rule R89: `NUMBITS` is one or more decimal digits, its value the exact sum of the digits times powers of ten; leading zeros change
nothing; anything else fails the line with `MalformedLineError`; a value too large for its buffers fails with `AllocationError`. -/
def Obligations.NumbitsIsDecimal : Prop :=
  (∀ (w : Token) (n : Nat), decimal w = some n ↔
    w ≠ [] ∧ (∀ c ∈ w, 0x30 ≤ c.toNat ∧ c.toNat ≤ 0x39) ∧ n = Nat.ofDigits 10 (w.reverse.map fun c => c.toNat - 0x30)) ∧
  (∀ w : Token, w ≠ [] → decimal (0x30 :: w) = decimal w) ∧
  ∀ (s : State) (r : Reg) (w : Token) (rest : List Token),
    (decimal w = none → exec (lineInstr r (w :: rest)) s = .next { s with response := some (.error .malformedLineError) }) ∧
    ∀ n, decimal w = some n → n ≠ (s.store r).numBits → fits s.maxBytes (ceil8 n) = false →
      exec (lineInstr r (w :: rest)) s = .next { s with response := some (.error .allocationError) }

/-- Rules R90 and R91: a keyword is compared as a whole and case-sensitively, and exactly the outermost parentheses of a value are stripped.
-/
def Obligations.KeywordsAndValues : Prop :=
  (∀ (k : Token) (f : Field), ofKeyword k = some f ↔ k = keyword f) ∧
  keyword .tdi = [0x54, 0x44, 0x49] ∧ keyword .tdo = [0x54, 0x44, 0x4F] ∧ keyword .mask = [0x4D, 0x41, 0x53, 0x4B] ∧
  ∀ (v h : Bytes), stripParens v = some h ↔ v = 0x28#8 :: (h ++ [0x29#8])

/-- Rule R194, for the six register commands `HDR`, `HIR`, `SDR`, `SIR`, `TDR`, `TIR` (rules R192, R193, R196 to R202): a line of a good
width and good pairs ends with ok. Its store then has the line's width; each field holds the line's own value where the line names it, zeros
where it does not and the width changes, and its previous bytes where it does not and the width is kept. Nothing else changes. -/
def Obligations.LineSetsItsStore : Prop :=
  ∀ (s : State) (r : Reg) (w : Token) (n : Nat) (ps : List (Field × Bytes)), GoodWidth s r w n → GoodPairs n ps →
    ∃ t, exec (lineInstr r (w :: pairTokens ps)) s = .next t ∧ t.response = some (.ok .empty) ∧
      (t.store r).numBits = n ∧
      (∀ f h Y, (f, h) ∈ ps → decodeHex h = some Y → ((t.store r).field f).data = Y) ∧
      (∀ f, (∀ h, (f, h) ∉ ps) → n ≠ (s.store r).numBits → ((t.store r).field f).data = List.replicate (ceil8 n) 0) ∧
      (∀ f, (∀ h, (f, h) ∉ ps) → n = (s.store r).numBits → ((t.store r).field f).data = ((s.store r).field f).data) ∧
      (∀ f, ((t.store r).field f).cap = max ((s.store r).field f).cap (ceil8 n)) ∧
      (∀ r', r' ≠ r → t.store r' = s.store r') ∧
      t.scratch = s.scratch ∧ t.maxBytes = s.maxBytes ∧ t.script = s.script

/-- Rules R96, R196 and R238: what each ill-formed register line answers, in token order, with no state changed: the first check that fails
decides, and nothing after it is looked at. -/
def Obligations.LineErrorsInTokenOrder : Prop :=
  ∀ (s : State) (r : Reg),
    let answers := fun (args : List Token) (k : ErrorKind) =>
      exec (lineInstr r args) s = .next { s with response := some (.error k) }
    answers [] .malformedLineError ∧
    (∀ w rest, decimal w = none → answers (w :: rest) .malformedLineError) ∧
    (∀ w n rest, decimal w = some n → n ≠ (s.store r).numBits → fits s.maxBytes (ceil8 n) = false →
      answers (w :: rest) .allocationError) ∧
    ∀ w n ps, GoodWidth s r w n → GoodPairs n ps →
      (∀ k rest, (∀ f, k ≠ keyword f) → answers (w :: (pairTokens ps ++ k :: rest)) .unknownFieldError) ∧
      (∀ f rest, f ∈ ps.map Prod.fst → answers (w :: (pairTokens ps ++ keyword f :: rest)) .malformedLineError) ∧
      (∀ f, f ∉ ps.map Prod.fst →
        answers (w :: (pairTokens ps ++ [keyword f])) .malformedLineError ∧
        (∀ v rest, (∀ h, v ≠ 0x28#8 :: (h ++ [0x29#8])) →
          answers (w :: (pairTokens ps ++ keyword f :: v :: rest)) .malformedLineError) ∧
        (∀ h rest, decodeHex h = none →
          answers (w :: (pairTokens ps ++ keyword f :: (0x28#8 :: (h ++ [0x29#8])) :: rest)) .malformedHexError) ∧
        (∀ h Y rest, decodeHex h = some Y → Y.length ≠ ceil8 n →
          answers (w :: (pairTokens ps ++ keyword f :: (0x28#8 :: (h ++ [0x29#8])) :: rest)) .malformedValueError))

/-- Rule R204: a line that raises any error leaves every state exactly as it was (only the response is given), and no line ever touches
another store or a scratch buffer. -/
def Obligations.LineIsAllOrNothing : Prop :=
  ∀ (r : Reg) (args : List Token) (s t : State), exec (lineInstr r args) s = .next t →
    (∀ k, t.response = some (.error k) → t = { s with response := some (.error k) }) ∧
    (∀ r', r' ≠ r → t.store r' = s.store r') ∧ t.scratch = s.scratch

/-- Rules R7, R96 and R240: command lines are never refused: every text is a legal line that succeeds or answers an error status. -/
def Obligations.LinesAreNeverRefused : Prop :=
  (∀ (r : Reg) (args : List Token) (s : State),
    ∃ t, exec (lineInstr r args) s = .next t ∧
      (t.response = some (.ok .empty) ∨ ∃ k ∈ mayRaise (lineInstr r args), t.response = some (.error k))) ∧
  ∀ (text : Bytes) (s : State), text.length < 2 ^ 32 → ∃ t, runPacket (0x30 :: encBlob text) s = .next t

/-- Rule R207: the new Bit-Store is a function of the previous Bit-Store of the named register and the line alone (and of the parameter
`MAXBYTES`): it reads no other store, no scratch buffer and no history. -/
def Obligations.LineReadsOnlyItsStore : Prop :=
  ∀ (r : Reg) (args : List Token) (s s' : State), s.store r = s'.store r → s.maxBytes = s'.maxBytes →
    ∃ t t', exec (lineInstr r args) s = .next t ∧ exec (lineInstr r args) s' = .next t' ∧
      t.store r = t'.store r ∧ t.response = t'.response

/-- Rule R208: retention and reset on width change (the source's scenario, from reset), idempotence of every line in every state, and an old
width that does not bring old contents back. The spec marks idempotence and the last part as its own inferences ("derived: from rule R196",
"derived: from rule R192"). -/
def Obligations.LinesOverTime : Prop :=
  (∀ (r : Reg) (args : List Token) (s t : State), exec (lineInstr r args) s = .next t →
    exec (lineInstr r args) t = .next t) ∧
  (∃ a b c, exec (.hdr [[0x38], keyword .tdi, [0x28, 0x61, 0x61, 0x29]]) State.reset = .next a ∧
    exec (.hdr [[0x38], keyword .mask, [0x28, 0x35, 0x35, 0x29]]) a = .next b ∧
    b.store .hdr = { numBits := 8, tdi := { cap := 1, data := [0xAA] }, tdo := { cap := 1, data := [0x00] },
                     mask := { cap := 1, data := [0x55] } } ∧
    exec (.hdr [[0x36], keyword .tdi, [0x28, 0x33, 0x41, 0x29]]) b = .next c ∧
    c.store .hdr = { numBits := 6, tdi := { cap := 1, data := [0x3A] }, tdo := { cap := 1, data := [0x00] },
                     mask := { cap := 1, data := [0x00] } }) ∧
  ∀ (r : Reg) (w w' : Token) (n n' : Nat) (s t u : State), decimal w = some n → decimal w' = some n' → n ≠ n' →
    (s.store r).numBits = n → exec (lineInstr r [w']) s = .next t → t.response = some (.ok .empty) →
    exec (lineInstr r [w]) t = .next u → u.response = some (.ok .empty) →
    ∀ f, ((u.store r).field f).data = List.replicate (ceil8 n) 0

/-- Rule R205, `QUERY`: the four parts of the store the packet names, and no state changed; a `reg` above 5 is a malformed packet; the three
byte sequences have the length of rule R22; after reset all parts are empty; after a failed line they are what they were. -/
def Obligations.QueryReturnsTheStore : Prop :=
  (∀ r : Reg, decodePacket [0x31, BitVec.ofNat 8 r.index] = .instr (.query r)) ∧
  (∀ b : Byte, 5 < b.toNat → ∀ s, runPacket [0x31, b] s = .refused .badPacket) ∧
  ∀ (s : State) (r : Reg),
    exec (.query r) s =
      .next { s with
        response := some (.ok (.store (s.store r).numBits (s.store r).tdi.data (s.store r).tdo.data (s.store r).mask.data)) } ∧
    (Memory.wf s → ∀ f, ((s.store r).field f).data.length = ceil8 (s.store r).numBits) ∧
    exec (.query r) State.reset = .next { State.reset with response := some (.ok (.store 0 [] [] [])) } ∧
    ∀ (r' : Reg) (args : List Token) (t : State) (k : ErrorKind), exec (lineInstr r' args) s = .next t →
      t.response = some (.error k) → exec (.query r) t = exec (.query r) s

/-! ## The whole machine -/

/-- Rule R22 with rules R6 and R25: every step keeps the invariant: each store buffer has `ceil8(numBits)` bytes, each live buffer's length
is within its capacity and its capacity within `MAXBYTES`, and the parameters stay in range. That every command preserves it is the spec's
own inference ("derived: from rule R28 and 43_register_parse.md rules R196 to R202"). -/
def Obligations.StepKeepsInvariant : Prop :=
  ∀ s t : State, Inv s → step s = .next t → Inv t

/-- Rule R22: reset establishes the invariant. The parameters' values at reset are the model's (log entry 1). -/
def Obligations.ResetMeetsInvariant : Prop := Inv State.reset

/-- Rule R25: a capacity never decreases while the buffer stays live: a step that is no reset leaves every buffer that is live before and
after it with at least its old capacity. -/
def Obligations.CapacityNeverShrinks : Prop :=
  ∀ (s t : State), (∀ rest, s.script ≠ .reset :: rest) → step s = .next t →
    (∀ r f, ((s.store r).field f).cap ≤ ((t.store r).field f).cap) ∧
    ∀ i b b', s.slot i = some b → t.slot i = some b' → b.cap ≤ b'.cap

/-- Rule R29, the frame of the commands that only read, `BREAD`, `HEXREN` and `QUERY`: nothing changes but the response. The spec marks its
table of accesses as its own inference ("derived: from the rules of 40_byte_buffer.md ..."). -/
def Obligations.ReadersChangeNothing : Prop :=
  ∀ (i : Instr) (s t : State), ((∃ id, i = .bread id) ∨ (∃ id, i = .hexren id) ∨ ∃ r, i = .query r) → exec i s = .next t →
    t.stores = s.stores ∧ t.scratch = s.scratch ∧ t.maxBytes = s.maxBytes ∧ t.script = s.script ∧
    ∀ id off, t.readByte id off = s.readByte id off

/-- Rules R28 and R29, the frame of the commands that write a scratch buffer, `BCREATE`, `BRESET`, `BAPPEND`, `BRESIZEZ`, `BDESTROY`,
`HEXDEC`, `MERGE` and `CHAIN`: every store, every other scratch buffer with its capacity, the parameters, the host's script and every byte
outside the buffer whose id the command carries as the one it writes are as before. The spec marks its table of accesses as its own
inference. -/
def Obligations.BufferWritersFrame : Prop :=
  ∀ (i : Instr) (id : Byte) (s t : State), writtenBuffer i = some id → exec i s = .next t →
    t.stores = s.stores ∧ t.maxBytes = s.maxBytes ∧ t.script = s.script ∧ t.nscratch = s.nscratch ∧
    (∀ j, id.toNat ≠ 0x80 + j → t.slot j = s.slot j) ∧
    ∀ id' off, id' ≠ id → t.readByte id' off = s.readByte id' off

/-- Rule R29, the frame of the six register commands: every other store, every scratch buffer, the parameters, the host's script and every
byte outside the three buffers of the named store are as before. The spec marks its table of accesses as its own inference. -/
def Obligations.LinesFrame : Prop :=
  ∀ (r : Reg) (args : List Token) (s t : State), exec (lineInstr r args) s = .next t →
    (∀ r', r' ≠ r → t.store r' = s.store r') ∧ t.scratch = s.scratch ∧ t.maxBytes = s.maxBytes ∧ t.script = s.script ∧
    ∀ id off, (∀ f, id ≠ storeId r f) → t.readByte id off = s.readByte id off

/-- Rule R237: an error changes nothing, but `HEXDEC` leaves its target live and empty with its capacity. -/
def Obligations.ErrorsChangeNothing : Prop :=
  ∀ (i : Instr) (s t : State) (k : ErrorKind), exec i s = .next t → t.response = some (.error k) →
    ((∀ id text, i ≠ .hexdec id text) → t = { s with response := some (.error k) }) ∧
    ∀ id text, i = .hexdec id text →
      ∃ j b, ScratchHolds s id j b ∧
        t = { s with scratch := s.scratch.set j (some { cap := b.cap, data := [] }), response := some (.error k) }

/-- Rule R230: the status codes, the response of an error (the code alone), which commands raise which kinds, and that `UnknownCommandError`
is raised by a `LINE` that names no register command and by nothing else. -/
def Obligations.ErrorKindsAndCodes : Prop :=
  (∀ r p, (Response.ok r).packet = some p → p.head? = some 0x00) ∧
  (Response.error .allocationError).packet = some [0x01] ∧ (Response.error .malformedHexError).packet = some [0x02] ∧
  (Response.error .malformedValueError).packet = some [0x03] ∧ (Response.error .unknownCommandError).packet = some [0x04] ∧
  (Response.error .unknownFieldError).packet = some [0x05] ∧ (Response.error .malformedLineError).packet = some [0x06] ∧
  (∀ (i : Instr) (s t : State) (k : ErrorKind), exec i s = .next t → t.response = some (.error k) → k ∈ mayRaise i) ∧
  ∀ (p : Packet) (s t : State), runPacket p s = .next t →
    (t.response = some (.error .unknownCommandError) ↔ decodePacket p = .unknownLine)

/-- Rule R231: `AllocationError` is raised exactly when a command needs a buffer of more than `MAXBYTES` bytes (and so never where
`MAXBYTES` is "no bound"). -/
def Obligations.AllocationErrorExactlyAboveMaxBytes : Prop :=
  ∀ (i : Instr) (s t : State), exec i s = .next t →
    (t.response = some (.error .allocationError) ↔ ∃ need m, Needs s need i ∧ s.maxBytes = some m ∧ m < need)

/-- Rules R7 and R84: every command that is not refused answers, and what it returns with status ok has the shape of its row in rule R84's
table. -/
def Obligations.EveryCommandAnswers : Prop :=
  ∀ (i : Instr) (s : State), (∃ r, exec i s = .refused r) ∨
    ∃ t, exec i s = .next t ∧ ((∃ k, t.response = some (.error k)) ∨ ∃ res, t.response = some (.ok res) ∧ resultFits i res)

/-- Rule R84: the layout of each result in the response packet, for numbers and blob lengths that fit their 32-bit fields, with the
big-endian numbers of rule R94; an error's packet is its code alone. Where `MAXBYTES` is "no bound" the packet is left out, as the rule says
a model should; that command packets are read there all the same is the model's choice (log entry 24). -/
def Obligations.ResponsePacketLayout : Prop :=
  (∀ v n, v < 256 ^ n → (be v n).length = n ∧ val (be v n) = v) ∧
  (Response.ok .empty).packet = some [0x00] ∧
  (∀ data, data.length < 2 ^ 32 → (Response.ok (.bytes data.length data)).packet = some (0x00 :: (be data.length 4 ++ data))) ∧
  (∀ chars, chars.length < 2 ^ 32 → (Response.ok (.text chars)).packet = some (0x00 :: (be chars.length 4 ++ chars))) ∧
  (∀ n, n < 2 ^ 32 → (Response.ok (.totalBits n)).packet = some (0x00 :: be n 4)) ∧
  (∀ n a b c, n < 2 ^ 32 → a.length < 2 ^ 32 → b.length < 2 ^ 32 → c.length < 2 ^ 32 →
    (Response.ok (.store n a b c)).packet =
      some (0x00 :: (be n 4 ++ be a.length 4 ++ a ++ be b.length 4 ++ b ++ be c.length 4 ++ c))) ∧
  (∀ k, (Response.error k).packet = some [k.code]) ∧
  ∀ s : State, (s.maxBytes = none → s.responsePacket = none) ∧
    ∀ m r, s.maxBytes = some m → s.response = some r → s.responsePacket = r.packet

/-- Rule R84: in a state that meets the invariant, under a finite `MAXBYTES`, every number and blob length that a successful command returns
fits its 32-bit field, so that the response has its packet, which starts with the status ok. The spec marks this as its own inference
("derived: from 42_bit_merge.md rule R161 and 10_state.md rule R22"). -/
def Obligations.ResponseNumbersFitTheirFields : Prop :=
  ∀ (i : Instr) (s t : State) (m : Nat) (res : Result), Inv s → s.maxBytes = some m → exec i s = .next t →
    t.response = some (.ok res) → res.fitsPacket = true ∧ t.responsePacket = some (0x00 :: res.fields)

/-- Rule R34: capacity influences no response at all: two states that differ only in capacities answer every command alike, and the states
after it again differ only in capacities. The spec marks this as its own inference ("derived: from 40_byte_buffer.md rule R121"). -/
def Obligations.CapacityIsUnobservable : Prop :=
  ∀ (i : Instr) (s s' : State), s.forgetCap = s'.forgetCap →
    outView State.forgetCap (exec i s) = outView State.forgetCap (exec i s')

/-- Rule R245: two instances share nothing: steps of different instances give the same results in either order. The spec marks this as its
own inference ("derived: from 10_state.md rule R26 and 20_memory.md rule R62"). -/
def Obligations.InstancesAreIndependent : Prop :=
  ∀ (j k : Nat) (ms a b : List State), j ≠ k → stepInstance j ms = .next a → stepInstance k a = .next b →
    ∃ a', stepInstance k ms = .next a' ∧ stepInstance j a' = .next b ∧ a'[j]? = ms[j]? ∧ a[k]? = ms[k]?
end

