-- ==== Sys2Proof/Laws/Bytes.lean ====
section
/-! SUPPORT. Laws/Bytes.lean: sizes and big-endian byte sequences (00_scope.md section 5.1): `ceil8`, `val`, `be`, `num32`. -/

namespace Sys2Proof

@[simp] theorem ceil8_zero : ceil8 0 = 0 := rfl

theorem le_eight_mul_ceil8 (n : Nat) : n ≤ 8 * ceil8 n := by unfold ceil8; omega

theorem eight_mul_ceil8_lt (n : Nat) : 8 * ceil8 n < n + 8 := by unfold ceil8; omega

@[simp] theorem val_nil : val [] = 0 := rfl

theorem foldl_val (X : Bytes) : ∀ a : Nat, X.foldl (fun acc b => acc * 256 + b.toNat) a = a * 256 ^ X.length + val X := by
  induction X with
  | nil => intro a; simp
  | cons x xs ih =>
    intro a
    simp only [List.foldl_cons, List.length_cons, val, Nat.zero_mul, Nat.zero_add]
    rw [ih, ih x.toNat, pow_succ]
    ring

theorem val_append (X Y : Bytes) : val (X ++ Y) = val X * 256 ^ Y.length + val Y := by
  rw [val, List.foldl_append, foldl_val Y]; rfl

theorem val_cons (x : Byte) (X : Bytes) : val (x :: X) = x.toNat * 256 ^ X.length + val X := by
  simpa [val] using val_append [x] X

theorem val_lt (X : Bytes) : val X < 256 ^ X.length := by
  induction X with
  | nil => simp
  | cons x xs ih =>
    have hx : x.toNat + 1 ≤ 256 := x.isLt
    rw [val_cons, List.length_cons, pow_succ]
    calc x.toNat * 256 ^ xs.length + val xs < (x.toNat + 1) * 256 ^ xs.length := by linarith
      _ ≤ 256 ^ xs.length * 256 := by rw [Nat.mul_comm]; exact Nat.mul_le_mul_left _ hx

@[simp] theorem length_be (n : Nat) : ∀ v : Nat, (be v n).length = n := by
  induction n with
  | zero => intro v; rfl
  | succ n ih => intro v; simp [be, ih]

/-- `val(be(v, n)) = v` for `v < 256^n`; in general the low `n` bytes of `v`. -/
theorem val_be (n : Nat) : ∀ v : Nat, val (be v n) = v % 256 ^ n := by
  induction n with
  | zero => intro v; simp [be, Nat.mod_one]
  | succ n ih =>
    intro v
    rw [be, val_append, ih]
    simp only [List.length_singleton, pow_one, val, List.foldl_cons, List.foldl_nil, Nat.zero_mul, Nat.zero_add, BitVec.toNat_ofNat]
    have h : v / 256 % 256 ^ n * 256 + v % 256 = v % (256 * 256 ^ n) := by
      rw [Nat.mod_mul]; ring
    rw [show (256 : Nat) ^ (n + 1) = 256 * 256 ^ n by rw [pow_succ, Nat.mul_comm], ← h]

theorem val_be_of_lt {v n : Nat} (h : v < 256 ^ n) : val (be v n) = v := by
  rw [val_be, Nat.mod_eq_of_lt h]

/-- `be(val(X), |X|) = X`: the byte sequence of a length and value is unique. -/
theorem be_val (X : Bytes) : be (val X) X.length = X := by
  induction X using List.reverseRecOn with
  | nil => rfl
  | append_singleton X x ih =>
    have h1 : val (X ++ [x]) = val X * 256 + x.toNat := by simp [val]
    have hx : x.toNat < 256 := x.isLt
    rw [List.length_append, List.length_singleton, be, h1,
      show (val X * 256 + x.toNat) / 256 = val X by omega, ih]
    congr 2
    apply BitVec.eq_of_toNat_eq
    simp only [BitVec.toNat_ofNat]
    omega

theorem num32_lt (a b c d : Byte) : num32 a b c d < 2 ^ 32 := by
  have ha : a.toNat < 256 := a.isLt
  have hb : b.toNat < 256 := b.isLt
  have hc : c.toNat < 256 := c.isLt
  have hd : d.toNat < 256 := d.isLt
  unfold num32
  omega

theorem num32_eq_val (a b c d : Byte) : num32 a b c d = val [a, b, c, d] := by
  simp only [num32, val, List.foldl_cons, List.foldl_nil]
  ring

/-- A `num32` field read back and written again. -/
theorem encNum32_num32 (a b c d : Byte) : encNum32 (num32 a b c d) = [a, b, c, d] := by
  rw [num32_eq_val]; exact be_val [a, b, c, d]

/-- A number that fits a `num32` field is four bytes that assemble to it. -/
theorem encNum32_spec {n : Nat} (h : n < 2 ^ 32) : ∃ a b c d, encNum32 n = [a, b, c, d] ∧ num32 a b c d = n := by
  have hl : (encNum32 n).length = 4 := length_be 4 n
  match hb : encNum32 n, hl with
  | [a, b, c, d], _ =>
    refine ⟨a, b, c, d, rfl, ?_⟩
    rw [num32_eq_val, ← hb]
    exact val_be_of_lt (by simpa using h)

@[simp] theorem length_encNum32 (n : Nat) : (encNum32 n).length = 4 := length_be 4 n

@[simp] theorem length_encBlob (X : Bytes) : (encBlob X).length = 4 + X.length := by simp [encBlob]

end Sys2Proof

namespace Sys2Proof.Machine

/-- A Bit Value's number is below `2^width`. -/
theorem BitValue.low_lt (v : BitValue) : v.low < 2 ^ v.width := Nat.mod_lt _ (by positivity)

/-- The value `pack` writes is below `2^total`. -/
theorem packValue_lt (t l h : BitValue) :
    t.low * 2 ^ (l.width + h.width) + l.low * 2 ^ h.width + h.low < 2 ^ packTotal t l h := by
  have ht := t.low_lt
  have hl := l.low_lt
  have hh := h.low_lt
  have e : 2 ^ packTotal t l h = 2 ^ t.width * (2 ^ l.width * 2 ^ h.width) := by
    rw [packTotal, pow_add, pow_add]; ring
  rw [e, pow_add]
  calc t.low * (2 ^ l.width * 2 ^ h.width) + l.low * 2 ^ h.width + h.low
      < t.low * (2 ^ l.width * 2 ^ h.width) + (l.low + 1) * 2 ^ h.width := by linarith
    _ ≤ t.low * (2 ^ l.width * 2 ^ h.width) + 2 ^ l.width * 2 ^ h.width := by
        have := Nat.mul_le_mul_right (2 ^ h.width) (Nat.succ_le_of_lt hl)
        linarith
    _ = (t.low + 1) * (2 ^ l.width * 2 ^ h.width) := by ring
    _ ≤ _ := Nat.mul_le_mul_right _ (Nat.succ_le_of_lt ht)

end Sys2Proof.Machine
end

