-- ==== Sys2Proof/Laws/State.lean ====
section
/-! SUPPORT. Laws/State.lean: one lemma per field per update of the state, true by `rfl`, and the read-after-write laws of stores, fields
and slots. -/

namespace Sys2Proof.Machine

/-! ## `State.respond` -/

@[simp] theorem State.respond_stores (s : State) (r : Response) : (s.respond r).stores = s.stores := rfl

@[simp] theorem State.respond_scratch (s : State) (r : Response) : (s.respond r).scratch = s.scratch := rfl

@[simp] theorem State.respond_maxBytes (s : State) (r : Response) : (s.respond r).maxBytes = s.maxBytes := rfl

@[simp] theorem State.respond_response (s : State) (r : Response) : (s.respond r).response = some r := rfl

@[simp] theorem State.respond_script (s : State) (r : Response) : (s.respond r).script = s.script := rfl

/-! ## `State.setSlot` -/

@[simp] theorem State.setSlot_stores (s : State) (i : Nat) (v : Option Buf) : (s.setSlot i v).stores = s.stores := rfl

@[simp] theorem State.setSlot_scratch (s : State) (i : Nat) (v : Option Buf) : (s.setSlot i v).scratch = s.scratch.set i v := rfl

@[simp] theorem State.setSlot_maxBytes (s : State) (i : Nat) (v : Option Buf) : (s.setSlot i v).maxBytes = s.maxBytes := rfl

@[simp] theorem State.setSlot_response (s : State) (i : Nat) (v : Option Buf) : (s.setSlot i v).response = s.response := rfl

@[simp] theorem State.setSlot_script (s : State) (i : Nat) (v : Option Buf) : (s.setSlot i v).script = s.script := rfl

/-! ## `State.setStore` -/

@[simp] theorem State.setStore_stores (s : State) (r : Reg) (v : BitStore) : (s.setStore r v).stores = s.stores.set r v := rfl

@[simp] theorem State.setStore_scratch (s : State) (r : Reg) (v : BitStore) : (s.setStore r v).scratch = s.scratch := rfl

@[simp] theorem State.setStore_maxBytes (s : State) (r : Reg) (v : BitStore) : (s.setStore r v).maxBytes = s.maxBytes := rfl

@[simp] theorem State.setStore_response (s : State) (r : Reg) (v : BitStore) : (s.setStore r v).response = s.response := rfl

@[simp] theorem State.setStore_script (s : State) (r : Reg) (v : BitStore) : (s.setStore r v).script = s.script := rfl

/-! ## `State.withScript` -/

@[simp] theorem State.withScript_stores (s : State) (evs : List HostEvent) : (s.withScript evs).stores = s.stores := rfl

@[simp] theorem State.withScript_scratch (s : State) (evs : List HostEvent) : (s.withScript evs).scratch = s.scratch := rfl

@[simp] theorem State.withScript_maxBytes (s : State) (evs : List HostEvent) : (s.withScript evs).maxBytes = s.maxBytes := rfl

@[simp] theorem State.withScript_response (s : State) (evs : List HostEvent) : (s.withScript evs).response = s.response := rfl

@[simp] theorem State.withScript_script (s : State) (evs : List HostEvent) : (s.withScript evs).script = evs := rfl

/-! ## `State.resetBlock` -/

@[simp] theorem State.resetBlock_stores (s : State) : (s.resetBlock).stores = Stores.atReset := rfl

@[simp] theorem State.resetBlock_scratch (s : State) : (s.resetBlock).scratch = List.replicate s.nscratch none := rfl

@[simp] theorem State.resetBlock_maxBytes (s : State) : (s.resetBlock).maxBytes = s.maxBytes := rfl

@[simp] theorem State.resetBlock_response (s : State) : (s.resetBlock).response = none := rfl

@[simp] theorem State.resetBlock_script (s : State) : (s.resetBlock).script = s.script := rfl

/-! ## Stores and fields -/

@[simp] theorem Stores.get_set_self (x : Stores) (r : Reg) (v : BitStore) : (x.set r v).get r = v := by
  cases r <;> rfl

theorem Stores.get_set_of_ne (x : Stores) {r r' : Reg} (v : BitStore) (h : r' ≠ r) : (x.set r v).get r' = x.get r' := by
  cases r <;> cases r' <;> first | rfl | exact absurd rfl h

@[simp] theorem BitStore.field_setField_self (x : BitStore) (f : Field) (b : Buf) : (x.setField f b).field f = b := by
  cases f <;> rfl

theorem BitStore.field_setField_of_ne (x : BitStore) {f f' : Field} (b : Buf) (h : f' ≠ f) :
    (x.setField f b).field f' = x.field f' := by
  cases f <;> cases f' <;> first | rfl | exact absurd rfl h

@[simp] theorem BitStore.numBits_setField (x : BitStore) (f : Field) (b : Buf) : (x.setField f b).numBits = x.numBits := by
  cases f <;> rfl

/-- Two Bit-Stores with the same width and the same three buffers are the same. -/
theorem BitStore.ext_field {x y : BitStore} (hn : x.numBits = y.numBits) (hf : ∀ f, x.field f = y.field f) : x = y := by
  cases x; cases y
  have h1 := hf .tdi
  have h2 := hf .tdo
  have h3 := hf .mask
  simp_all [BitStore.field]

/-- Two files of Bit-Stores that agree at every index are the same. -/
theorem Stores.ext_get {x y : Stores} (h : ∀ r, x.get r = y.get r) : x = y := by
  cases x; cases y
  have h1 := h .hir
  have h2 := h .hdr
  have h3 := h .sir
  have h4 := h .sdr
  have h5 := h .tir
  have h6 := h .tdr
  simp_all [Stores.get]

@[simp] theorem State.store_respond (s : State) (x : Response) (r : Reg) : (s.respond x).store r = s.store r := rfl

@[simp] theorem State.store_setSlot (s : State) (i : Nat) (v : Option Buf) (r : Reg) : (s.setSlot i v).store r = s.store r := rfl

@[simp] theorem State.store_withScript (s : State) (evs : List HostEvent) (r : Reg) : (s.withScript evs).store r = s.store r := rfl

@[simp] theorem State.store_setStore_self (s : State) (r : Reg) (v : BitStore) : (s.setStore r v).store r = v :=
  Stores.get_set_self _ _ _

theorem State.store_setStore_of_ne (s : State) {r r' : Reg} (v : BitStore) (h : r' ≠ r) :
    (s.setStore r v).store r' = s.store r' :=
  Stores.get_set_of_ne _ _ h

@[simp] theorem State.store_resetBlock (s : State) (r : Reg) : s.resetBlock.store r = BitStore.atReset := by
  cases r <;> rfl

/-! ## Slots -/

@[simp] theorem State.nscratch_respond (s : State) (x : Response) : (s.respond x).nscratch = s.nscratch := rfl

@[simp] theorem State.nscratch_setStore (s : State) (r : Reg) (v : BitStore) : (s.setStore r v).nscratch = s.nscratch := rfl

@[simp] theorem State.nscratch_withScript (s : State) (evs : List HostEvent) : (s.withScript evs).nscratch = s.nscratch := rfl

@[simp] theorem State.nscratch_setSlot (s : State) (i : Nat) (v : Option Buf) : (s.setSlot i v).nscratch = s.nscratch := by
  simp [State.nscratch]

@[simp] theorem State.nscratch_resetBlock (s : State) : s.resetBlock.nscratch = s.nscratch := by
  simp [State.nscratch]

@[simp] theorem State.slot_respond (s : State) (x : Response) (i : Nat) : (s.respond x).slot i = s.slot i := rfl

@[simp] theorem State.slot_setStore (s : State) (r : Reg) (v : BitStore) (i : Nat) : (s.setStore r v).slot i = s.slot i := rfl

@[simp] theorem State.slot_withScript (s : State) (evs : List HostEvent) (i : Nat) : (s.withScript evs).slot i = s.slot i := rfl

theorem State.slot_setSlot_self (s : State) {i : Nat} (v : Option Buf) (h : i < s.nscratch) : (s.setSlot i v).slot i = v := by
  simp [State.slot, show i < s.scratch.length from h]

theorem State.slot_setSlot_of_ne (s : State) {i j : Nat} (v : Option Buf) (h : j ≠ i) : (s.setSlot i v).slot j = s.slot j := by
  simp [State.slot, List.getElem?_set_ne (Ne.symm h)]

@[simp] theorem State.slot_resetBlock (s : State) (i : Nat) : s.resetBlock.slot i = none := by
  simp only [State.slot, State.resetBlock_scratch, List.getElem?_replicate]
  split <;> rfl

/-- A live slot is one of the block's. -/
theorem State.lt_of_slot {s : State} {i : Nat} {b : Buf} (h : s.slot i = some b) : i < s.nscratch := by
  by_contra hn
  simp [State.slot, List.getElem?_eq_none (Nat.le_of_not_lt hn)] at h

/-- A slot is live with `b` exactly where the file holds `b` there. -/
theorem State.slot_eq_some {s : State} {i : Nat} {b : Buf} : s.slot i = some b ↔ s.scratch[i]? = some (some b) := by
  simp [State.slot, Option.join_eq_some_iff]

/-- Setting a slot twice keeps the second value. -/
@[simp] theorem State.setSlot_setSlot (s : State) (i : Nat) (v w : Option Buf) :
    (s.setSlot i v).setSlot i w = s.setSlot i w := by
  simp [State.setSlot]

end Sys2Proof.Machine
end

