-- ==== Sys2Proof/Laws/Line.lean ====
section
/-! SUPPORT. Laws/Line.lean: what the parts of a command line (43_register_parse.md rule R196) can do: keywords, values, the width step,
the pairs, and the whole line. -/

namespace Sys2Proof.Machine

/-! ## Keywords and values -/

theorem ofKeyword_keyword (f : Field) : ofKeyword (keyword f) = some f := by cases f <;> decide

theorem eq_keyword_of_ofKeyword {k : Token} {f : Field} (h : ofKeyword k = some f) : k = keyword f := by
  have := List.find?_some h
  simpa using (of_decide_eq_true this).symm

theorem ofKeyword_eq_none {k : Token} (h : ∀ f, k ≠ keyword f) : ofKeyword k = none := by
  cases hk : ofKeyword k with
  | none => rfl
  | some f => exact absurd (eq_keyword_of_ofKeyword hk) (h f)

@[simp] theorem stripParens_parens (h : Bytes) : stripParens (0x28#8 :: (h ++ [0x29#8])) = some h := by
  simp [stripParens]

theorem eq_parens_of_stripParens {v h : Bytes} (hv : stripParens v = some h) : v = 0x28#8 :: (h ++ [0x29#8]) := by
  cases v with
  | nil => cases hv
  | cons c cs =>
    simp only [stripParens] at hv
    split at hv
    · next hc =>
      obtain ⟨rfl, hl⟩ := hc
      cases hv
      obtain ⟨ys, rfl⟩ := List.getLast?_eq_some_iff.1 hl
      simp
    · cases hv

/-- All that a value token can do (rules R91, R92, R195). -/
theorem pairValue_eq_ok {n : Nat} {v : Token} {Y : Bytes} :
    pairValue n v = .ok Y ↔ ∃ h, stripParens v = some h ∧ decodeHex h = some Y ∧ Y.length = ceil8 n := by
  simp only [pairValue]
  cases hs : stripParens v with
  | none => simp
  | some h =>
    cases hd : decodeHex h with
    | none => simp [hd]
    | some X =>
      by_cases hl : X.length = ceil8 n
      · simp only [hl, if_true, LineResult.ok.injEq, Option.some.injEq, exists_eq_left', hd]
        constructor
        · rintro rfl; exact ⟨rfl, hl⟩
        · rintro ⟨rfl, -⟩; rfl
      · simp only [hl, if_false, Option.some.injEq, exists_eq_left', hd]
        constructor
        · intro h; cases h
        · rintro ⟨rfl, hl'⟩; exact absurd hl' hl

/-- A value token raises one of three kinds. -/
theorem pairValue_error {n : Nat} {v : Token} {k : ErrorKind} (h : pairValue n v = .error k) :
    k = .malformedLineError ∨ k = .malformedHexError ∨ k = .malformedValueError := by
  simp only [pairValue] at h
  split at h
  · cases h; exact .inl rfl
  · split at h
    · cases h; exact .inr (.inl rfl)
    · split at h <;> cases h
      exact .inr (.inr rfl)

/-! ## The width step -/

/-- All that the width step can do (rule R192): the store as it is, the zeroed store, or `AllocationError`. -/
theorem widthStep_cases (maxBytes : Option Nat) (old : BitStore) (n : Nat) :
    (n = old.numBits ∧ widthStep maxBytes old n = some old) ∨
    (n ≠ old.numBits ∧ fits maxBytes (ceil8 n) = true ∧ widthStep maxBytes old n = some (old.zeroed n)) ∨
    (n ≠ old.numBits ∧ fits maxBytes (ceil8 n) = false ∧ widthStep maxBytes old n = none) := by
  unfold widthStep
  by_cases h : n = old.numBits
  · exact .inl ⟨h, if_pos h⟩
  · rw [if_neg h]
    cases hf : fits maxBytes (ceil8 n)
    · exact .inr (.inr ⟨h, rfl, by simp⟩)
    · exact .inr (.inl ⟨h, rfl, by simp⟩)

@[simp] theorem BitStore.numBits_zeroed (x : BitStore) (n : Nat) : (x.zeroed n).numBits = n := rfl

@[simp] theorem BitStore.field_zeroed (x : BitStore) (n : Nat) (f : Field) :
    (x.zeroed n).field f = { cap := (x.field f).cap, data := zeros (ceil8 n) } := by cases f <;> rfl

@[simp] theorem BitStore.numBits_commit (x : BitStore) (n : Nat) : (x.commit n).numBits = x.numBits := rfl

@[simp] theorem BitStore.field_commit (x : BitStore) (n : Nat) (f : Field) :
    (x.commit n).field f = { cap := max (x.field f).cap (ceil8 n), data := (x.field f).data } := by cases f <;> rfl

@[simp] theorem length_zeros (n : Nat) : (zeros n).length = n := List.length_replicate

/-! ## The pairs -/

/-- The working copy after good pairs. -/
def applyPairs (new : BitStore) (ps : List (Field × Bytes)) : BitStore :=
  ps.foldl (fun x p => x.setField p.1 ((x.field p.1).withData ((decodeHex p.2).getD []))) new

/-- What the pairs leave when they raise nothing: the width and the capacities as they were, and every field either as it was or of
`ceil8 n` bytes. -/
theorem pairsStep_ok {n : Nat} : ∀ {toks : List Token} {seen : List Field} {new new' : BitStore},
    pairsStep n toks seen new = .ok new' →
    new'.numBits = new.numBits ∧ ∀ f, (new'.field f).cap = (new.field f).cap ∧
      ((new'.field f).data = (new.field f).data ∨ (new'.field f).data.length = ceil8 n)
  | [], seen, new, new', h => by
    simp only [pairsStep] at h
    cases h
    exact ⟨rfl, fun f => ⟨rfl, .inl rfl⟩⟩
  | [k], seen, new, new', h => by
    simp only [pairsStep] at h
    cases hk : ofKeyword k with
    | none => simp only [hk] at h; cases h
    | some f => simp only [hk] at h; split at h <;> cases h
  | k :: v :: rest, seen, new, new', h => by
    simp only [pairsStep] at h
    cases hk : ofKeyword k with
    | none => simp only [hk] at h; cases h
    | some f =>
      simp only [hk] at h
      split at h
      · cases h
      · cases hv : pairValue n v with
        | error e => simp only [hv] at h; cases h
        | ok Y =>
          simp only [hv] at h
          obtain ⟨-, -, -, hl⟩ := pairValue_eq_ok.1 hv
          obtain ⟨hn, hf⟩ := pairsStep_ok h
          refine ⟨by simpa using hn, fun f' => ?_⟩
          obtain ⟨hc, hd⟩ := hf f'
          by_cases he : f' = f
          · subst he
            simp only [BitStore.field_setField_self, Buf.withData] at hc hd
            exact ⟨hc, .inr (hd.elim (fun e => e ▸ hl) id)⟩
          · rw [BitStore.field_setField_of_ne _ _ he] at hc hd
            exact ⟨hc, hd⟩

/-- The pairs raise one of four kinds. -/
theorem pairsStep_error {n : Nat} : ∀ {toks : List Token} {seen : List Field} {new : BitStore} {k : ErrorKind},
    pairsStep n toks seen new = .error k →
    k = .unknownFieldError ∨ k = .malformedLineError ∨ k = .malformedHexError ∨ k = .malformedValueError
  | [], seen, new, k, h => by simp only [pairsStep] at h; cases h
  | [t], seen, new, k, h => by
    simp only [pairsStep] at h
    cases hk : ofKeyword t with
    | none => simp only [hk] at h; cases h; exact .inl rfl
    | some f => simp only [hk] at h; split at h <;> cases h <;> exact .inr (.inl rfl)
  | t :: v :: rest, seen, new, k, h => by
    simp only [pairsStep] at h
    cases hk : ofKeyword t with
    | none => simp only [hk] at h; cases h; exact .inl rfl
    | some f =>
      simp only [hk] at h
      split at h
      · cases h; exact .inr (.inl rfl)
      · cases hv : pairValue n v with
        | error e =>
          simp only [hv] at h
          cases h
          exact .inr (pairValue_error hv)
        | ok Y =>
          simp only [hv] at h
          exact pairsStep_error h

/-- Good pairs at the front of the tokens are taken into the working copy, whatever follows them. -/
theorem pairsStep_good_pairs {n : Nat} (rest : List Token) : ∀ (ps : List (Field × Bytes)) (seen : List Field) (new : BitStore),
    (ps.map Prod.fst).Nodup → (∀ f ∈ ps.map Prod.fst, f ∉ seen) →
    (∀ p ∈ ps, ∃ Y, decodeHex p.2 = some Y ∧ Y.length = ceil8 n) →
    pairsStep n (pairTokens ps ++ rest) seen new = pairsStep n rest ((ps.map Prod.fst).reverse ++ seen) (applyPairs new ps)
  | [], seen, new, _, _, _ => rfl
  | (f, h) :: ps, seen, new, hnd, hseen, hgood => by
    obtain ⟨Y, hY, hl⟩ := hgood (f, h) (by simp)
    have hv : pairValue n (0x28#8 :: (h ++ [0x29#8])) = .ok Y := pairValue_eq_ok.2 ⟨h, stripParens_parens h, hY, hl⟩
    have hf : f ∉ seen := hseen f (by simp)
    simp only [List.map_cons, List.nodup_cons] at hnd
    have e : pairTokens ((f, h) :: ps) ++ rest = keyword f :: (0x28#8 :: (h ++ [0x29#8])) :: (pairTokens ps ++ rest) := by
      simp [pairTokens]
    rw [e, pairsStep]
    simp only [ofKeyword_keyword, if_neg hf, hv]
    rw [pairsStep_good_pairs rest ps (f :: seen) _ hnd.2
      (fun g hg hc => by
        rcases List.mem_cons.1 hc with rfl | hc
        · exact hnd.1 hg
        · exact hseen g (by simp only [List.map_cons, List.mem_cons]; exact .inr hg) hc)
      (fun p hp => hgood p (List.mem_cons_of_mem _ hp))]
    have ea : applyPairs new ((f, h) :: ps) = applyPairs (new.setField f ((new.field f).withData Y)) ps := by
      simp [applyPairs, hY]
    have es : (((f, h) :: ps).map Prod.fst).reverse ++ seen = (ps.map Prod.fst).reverse ++ f :: seen := by simp
    rw [ea, es]

@[simp] theorem numBits_applyPairs (ps : List (Field × Bytes)) : ∀ new : BitStore, (applyPairs new ps).numBits = new.numBits := by
  induction ps with
  | nil => intro new; rfl
  | cons p ps ih =>
    intro new
    have := ih (new.setField p.1 ((new.field p.1).withData ((decodeHex p.2).getD [])))
    simpa [applyPairs] using this

theorem cap_applyPairs (f : Field) (ps : List (Field × Bytes)) :
    ∀ new : BitStore, ((applyPairs new ps).field f).cap = (new.field f).cap := by
  induction ps with
  | nil => intro new; rfl
  | cons p ps ih =>
    intro new
    have h := ih (new.setField p.1 ((new.field p.1).withData ((decodeHex p.2).getD [])))
    refine Eq.trans h ?_
    by_cases he : f = p.1
    · subst he; simp [Buf.withData]
    · rw [BitStore.field_setField_of_ne _ _ he]

theorem field_applyPairs_of_not_mem {f : Field} (ps : List (Field × Bytes)) :
    ∀ new : BitStore, f ∉ ps.map Prod.fst → (applyPairs new ps).field f = new.field f := by
  induction ps with
  | nil => intro new _; rfl
  | cons p ps ih =>
    intro new h
    simp only [List.map_cons, List.mem_cons, not_or] at h
    refine Eq.trans (ih _ h.2) ?_
    rw [BitStore.field_setField_of_ne _ _ h.1]

/-! ## The whole line -/

/-- What a line that raises nothing makes of its store: the width it reads, each field of its own bytes or of `ceil8` bytes, and the
capacities raised. -/
theorem parseStore_ok {maxBytes : Option Nat} {old new : BitStore} {args : List Token} (h : parseStore maxBytes old args = .ok new) :
    (new.numBits = old.numBits ∨ fits maxBytes (ceil8 new.numBits) = true) ∧
    ∀ f, (new.field f).cap = max (old.field f).cap (ceil8 new.numBits) ∧
      ((new.field f).data.length = ceil8 new.numBits ∨ (new.numBits = old.numBits ∧ (new.field f).data = (old.field f).data)) := by
  cases args with
  | nil => cases h
  | cons w pairs =>
    simp only [parseStore] at h
    cases hd : decimal w with
    | none => simp only [hd] at h; cases h
    | some n =>
      simp only [hd] at h
      obtain ⟨hn, hw⟩ | ⟨hn, hf, hw⟩ | ⟨hn, hf, hw⟩ := widthStep_cases maxBytes old n <;> simp only [hw] at h
      · cases hp : pairsStep n pairs [] old with
        | error e => simp only [hp] at h; cases h
        | ok new' =>
          simp only [hp] at h
          cases h
          obtain ⟨hb, hfs⟩ := pairsStep_ok hp
          refine ⟨.inl (by simpa using hb), fun f => ?_⟩
          obtain ⟨hc, hdat⟩ := hfs f
          simp only [BitStore.field_commit, BitStore.numBits_commit, hc, hb, ← hn, true_and]
          exact hdat.symm
      · cases hp : pairsStep n pairs [] (old.zeroed n) with
        | error e => simp only [hp] at h; cases h
        | ok new' =>
          simp only [hp] at h
          cases h
          obtain ⟨hb, hfs⟩ := pairsStep_ok hp
          simp only [BitStore.numBits_zeroed] at hb
          refine ⟨.inr (by simpa [hb] using hf), fun f => ?_⟩
          obtain ⟨hc, hdat⟩ := hfs f
          simp only [BitStore.field_zeroed] at hc hdat
          simp only [BitStore.field_commit, BitStore.numBits_commit, hc, hb, true_and]
          exact .inl (hdat.elim (fun e => by rw [e]; exact length_zeros _) id)
      · cases h

/-- All that a register command can do (rules R196, R204): it always answers, with the one store replaced or with nothing changed. -/
theorem execLine_cases (r : Reg) (args : List Token) (s : State) :
    (∃ new, parseStore s.maxBytes (s.store r) args = .ok new ∧
      execLine r args s = .next ((s.setStore r new).respond (.ok .empty))) ∨
    (∃ k, parseStore s.maxBytes (s.store r) args = .error k ∧ execLine r args s = .next (s.respond (.error k))) := by
  unfold execLine
  cases h : parseStore s.maxBytes (s.store r) args with
  | ok new => exact .inl ⟨new, rfl, rfl⟩
  | error k => exact .inr ⟨k, rfl, rfl⟩

/-- The six register commands are one algorithm with the store fixed by the first token (rules R197 to R202). -/
theorem exec_lineInstr (r : Reg) (args : List Token) (s : State) : exec (lineInstr r args) s = execLine r args s := by
  cases r <;> rfl

end Sys2Proof.Machine
end

