-- ==== Sys2Proof/Laws/Operands.lean ====
section
/-! SUPPORT. Laws/Operands.lean: one lemma for each shared operation that says all it can do: buffer ids (R30), operand resolution
(R120), growth (R121), and writing a buffer's contents. -/

namespace Sys2Proof

/-! ## Indices -/

theorem Reg.ofIndex_eq_some {n : Nat} {r : Reg} : Reg.ofIndex n = some r ↔ n = r.index := by
  constructor
  · intro h
    match n, h with
    | 0, h => cases h; rfl
    | 1, h => cases h; rfl
    | 2, h => cases h; rfl
    | 3, h => cases h; rfl
    | 4, h => cases h; rfl
    | 5, h => cases h; rfl
  · rintro rfl; cases r <;> rfl

theorem Field.ofIndex_eq_some {n : Nat} {f : Field} : Field.ofIndex n = some f ↔ n = f.index := by
  constructor
  · intro h
    match n, h with
    | 0, h => cases h; rfl
    | 1, h => cases h; rfl
    | 2, h => cases h; rfl
  · rintro rfl; cases f <;> rfl

theorem Reg.index_lt (r : Reg) : r.index < 6 := by cases r <;> decide

theorem Field.index_lt (f : Field) : f.index < 3 := by cases f <;> decide

theorem Reg.exists_index {n : Nat} (h : n < 6) : ∃ r : Reg, r.index = n := by
  match n, h with
  | 0, _ => exact ⟨.hir, rfl⟩
  | 1, _ => exact ⟨.hdr, rfl⟩
  | 2, _ => exact ⟨.sir, rfl⟩
  | 3, _ => exact ⟨.sdr, rfl⟩
  | 4, _ => exact ⟨.tir, rfl⟩
  | 5, _ => exact ⟨.tdr, rfl⟩

theorem Field.exists_index {n : Nat} (h : n < 3) : ∃ f : Field, f.index = n := by
  match n, h with
  | 0, _ => exact ⟨.tdi, rfl⟩
  | 1, _ => exact ⟨.tdo, rfl⟩
  | 2, _ => exact ⟨.mask, rfl⟩

theorem Reg.mem_all (r : Reg) : r ∈ Reg.all := by cases r <;> decide

theorem Field.mem_all (f : Field) : f ∈ Field.all := by cases f <;> decide

end Sys2Proof

namespace Sys2Proof.Machine

/-! ## Buffer ids -/

/-- All an id can name (rule R30): below `0x12` a store buffer, from `0x80` on a scratch buffer the block has, and nothing else. -/
theorem bufRef_cases (n : Nat) (id : Byte) :
    (∃ r f, id.toNat = 3 * r.index + f.index ∧ bufRef n id = some (.store r f)) ∨
    (∃ i, id.toNat = 0x80 + i ∧ i < n ∧ bufRef n id = some (.scratch i)) ∨
    (((0x12 ≤ id.toNat ∧ id.toNat < 0x80) ∨ 0x80 + n ≤ id.toNat) ∧ bufRef n id = none) := by
  by_cases h : id.toNat < 0x12
  · obtain ⟨r, hr⟩ := Reg.exists_index (n := id.toNat / 3) (by omega)
    obtain ⟨f, hf⟩ := Field.exists_index (n := id.toNat % 3) (by omega)
    refine .inl ⟨r, f, by omega, ?_⟩
    rw [bufRef, if_pos h, Reg.ofIndex_eq_some.2 hr.symm, Field.ofIndex_eq_some.2 hf.symm]
  · by_cases h2 : 0x80 ≤ id.toNat ∧ id.toNat < 0x80 + n
    · exact .inr (.inl ⟨id.toNat - 0x80, by omega, by omega, by rw [bufRef, if_neg h, if_pos h2]⟩)
    · exact .inr (.inr ⟨by omega, by rw [bufRef, if_neg h, if_neg h2]⟩)

theorem bufRef_store {n : Nat} {id : Byte} {r : Reg} {f : Field} (h : id.toNat = 3 * r.index + f.index) :
    bufRef n id = some (.store r f) := by
  have hr := Reg.index_lt r
  have hf := Field.index_lt f
  rw [bufRef, if_pos (by omega), Reg.ofIndex_eq_some.2 (show id.toNat / 3 = r.index by omega),
    Field.ofIndex_eq_some.2 (show id.toNat % 3 = f.index by omega)]

theorem bufRef_scratch {n i : Nat} {id : Byte} (h : id.toNat = 0x80 + i) (hi : i < n) : bufRef n id = some (.scratch i) := by
  rw [bufRef, if_neg (by omega), if_pos (by omega), h, Nat.add_sub_cancel_left]

theorem bufRef_none {n : Nat} {id : Byte} (h : (0x12 ≤ id.toNat ∧ id.toNat < 0x80) ∨ 0x80 + n ≤ id.toNat) :
    bufRef n id = none := by
  rw [bufRef, if_neg (by omega), if_neg (by omega)]

/-! ## Resolution -/

/-- `resolve(id, WRITE)` of a live scratch buffer. -/
theorem resolveWrite_of_holds {s : State} {id : Byte} {i : Nat} {b : Buf} (h : ScratchHolds s id i b) :
    resolveWrite s id = .ok (i, b) := by
  simp only [resolveWrite, resolveSlot, bufRef_scratch h.1 (State.lt_of_slot h.2), h.2]

/-- All `resolve(id, WRITE)` can do. -/
theorem resolveWrite_eq_ok {s : State} {id : Byte} {i : Nat} {b : Buf} :
    resolveWrite s id = .ok (i, b) ↔ ScratchHolds s id i b := by
  refine ⟨fun h => ?_, resolveWrite_of_holds⟩
  obtain ⟨r, f, -, hb⟩ | ⟨j, hj, -, hb⟩ | ⟨-, hb⟩ := bufRef_cases s.nscratch id <;>
    simp only [resolveWrite, resolveSlot, hb] at h
  · cases h
  · cases hs : s.slot j <;> simp only [hs] at h <;> cases h
    exact ⟨hj, hs⟩
  · cases h

/-- All `resolve(id, READ)` can do. -/
theorem resolveRead_eq_ok {s : State} {id : Byte} {b : Buf} : resolveRead s id = .ok b ↔ Readable s id b := by
  constructor
  · intro h
    obtain ⟨r, f, hi, hb⟩ | ⟨j, hj, -, hb⟩ | ⟨-, hb⟩ := bufRef_cases s.nscratch id <;>
      simp only [resolveRead, hb] at h
    · cases h; exact .inr ⟨r, f, hi, rfl⟩
    · cases hs : s.slot j <;> simp only [hs] at h <;> cases h
      exact .inl ⟨j, hj, hs⟩
    · cases h
  · rintro (⟨i, hi, hs⟩ | ⟨r, f, hi, rfl⟩)
    · simp only [resolveRead, bufRef_scratch hi (State.lt_of_slot hs), hs]
    · simp only [resolveRead, bufRef_store hi]

/-- The slot an id names, live or not. -/
theorem resolveSlot_eq_ok {s : State} {id : Byte} {i : Nat} :
    resolveSlot s id = .ok i ↔ id.toNat = 0x80 + i ∧ i < s.nscratch := by
  constructor
  · intro h
    obtain ⟨r, f, -, hb⟩ | ⟨j, hj, hlt, hb⟩ | ⟨-, hb⟩ := bufRef_cases s.nscratch id <;>
      simp only [resolveSlot, hb] at h <;> cases h
    exact ⟨hj, hlt⟩
  · rintro ⟨h, hi⟩
    simp only [resolveSlot, bufRef_scratch h hi]

theorem resolveWrite_refuses {s : State} {id : Byte} {r : Refusal} (h : WriteRefusedWith s id r) :
    resolveWrite s id = .refuse r := by
  obtain ⟨rfl, h⟩ | ⟨rfl, h⟩ | ⟨rfl, i, h, hi, hs⟩ := h
  · simp only [resolveWrite, resolveSlot, bufRef_none h]
  · obtain ⟨r, f, -, hb⟩ | ⟨j, hj, -, -⟩ | ⟨hj, -⟩ := bufRef_cases s.nscratch id
    · simp only [resolveWrite, resolveSlot, hb]
    · exact absurd h (by unfold NamesStore; omega)
    · exact absurd h (by unfold NamesStore; omega)
  · simp only [resolveWrite, resolveSlot, bufRef_scratch h hi, hs]

theorem resolveRead_refuses {s : State} {id : Byte} {r : Refusal} (h : ReadRefusedWith s id r) :
    resolveRead s id = .refuse r := by
  obtain ⟨rfl, h⟩ | ⟨rfl, i, h, hi, hs⟩ := h
  · simp only [resolveRead, bufRef_none h]
  · simp only [resolveRead, bufRef_scratch h hi, hs]

/-- A command that writes a live scratch buffer goes on with it. -/
theorem withWrite_of_holds {s : State} {id : Byte} {i : Nat} {b : Buf} (k : Nat → Buf → Out) (h : ScratchHolds s id i b) :
    withWrite s id k = k i b := by
  simp only [withWrite, resolveWrite_of_holds h]

/-- A command that reads a readable buffer goes on with it. -/
theorem withRead_of_readable {s : State} {id : Byte} {b : Buf} (k : Buf → Out) (h : Readable s id b) : withRead s id k = k b := by
  simp only [withRead, resolveRead_eq_ok.2 h]

/-- A command with a written operand answers a next state only for a live scratch buffer, and then it is what it goes on with. -/
theorem withWrite_eq_next {s t : State} {id : Byte} {k : Nat → Buf → Out} :
    withWrite s id k = .next t ↔ ∃ i b, ScratchHolds s id i b ∧ k i b = .next t := by
  constructor
  · intro h
    unfold withWrite at h
    cases hr : resolveWrite s id with
    | refuse r => simp only [hr] at h; cases h
    | ok ib => simp only [hr] at h; exact ⟨ib.1, ib.2, resolveWrite_eq_ok.1 hr, h⟩
  · rintro ⟨i, b, hb, hk⟩
    rw [withWrite_of_holds k hb, hk]

/-- A command with a read operand answers a next state only for a readable buffer, and then it is what it goes on with. -/
theorem withRead_eq_next {s t : State} {id : Byte} {k : Buf → Out} :
    withRead s id k = .next t ↔ ∃ b, Readable s id b ∧ k b = .next t := by
  constructor
  · intro h
    unfold withRead at h
    cases hr : resolveRead s id with
    | refuse r => simp only [hr] at h; cases h
    | ok b => simp only [hr] at h; exact ⟨b, resolveRead_eq_ok.1 hr, h⟩
  · rintro ⟨b, hb, hk⟩
    rw [withRead_of_readable k hb, hk]

theorem withWrite_refused {s : State} {id : Byte} {r : Refusal} (k : Nat → Buf → Out) (h : WriteRefusedWith s id r) :
    withWrite s id k = .refused r := by
  simp only [withWrite, resolveWrite_refuses h]

theorem withRead_refused {s : State} {id : Byte} {r : Refusal} (k : Buf → Out) (h : ReadRefusedWith s id r) :
    withRead s id k = .refused r := by
  simp only [withRead, resolveRead_refuses h]

/-! ## Growth, and writing contents -/

theorem fits_eq_false {maxBytes : Option Nat} {n : Nat} : fits maxBytes n = false ↔ ∃ m, maxBytes = some m ∧ m < n := by
  cases maxBytes <;> simp [fits]

theorem fits_mono {maxBytes : Option Nat} {m n : Nat} (h : fits maxBytes n = true) (hle : m ≤ n) : fits maxBytes m = true := by
  cases maxBytes with
  | none => rfl
  | some k => simp only [fits, decide_eq_true_eq] at h ⊢; omega

theorem fits_max {maxBytes : Option Nat} {m n : Nat} (hm : fits maxBytes m = true) (hn : fits maxBytes n = true) :
    fits maxBytes (max m n) = true := by
  rcases Nat.le_total m n with h | h
  · rwa [Nat.max_eq_right h]
  · rwa [Nat.max_eq_left h]

@[simp] theorem fits_zero (maxBytes : Option Nat) : fits maxBytes 0 = true := by cases maxBytes <;> simp [fits]

/-- Storing bytes that fit `MAXBYTES`. -/
theorem storeBytes_of_fits {s : State} {i : Nat} {b : Buf} {Y : Bytes} {res : Result} (h : fits s.maxBytes Y.length = true) :
    storeBytes s i b Y res =
      .next ((s.setSlot i (some { cap := max b.cap Y.length, data := Y })).respond (.ok res)) := by
  simp only [storeBytes, ensure, h, if_true]; rfl

/-- Storing bytes that do not fit `MAXBYTES`. -/
theorem storeBytes_of_not_fits {s : State} {i : Nat} {b : Buf} {Y : Bytes} {res : Result}
    (h : fits s.maxBytes Y.length = false) : storeBytes s i b Y res = .next (s.respond (.error .allocationError)) := by
  simp [storeBytes, ensure, h, raise]

/-- All that storing bytes can do: it always answers, with the bytes stored or with `AllocationError`. -/
theorem storeBytes_cases (s : State) (i : Nat) (b : Buf) (Y : Bytes) (res : Result) :
    (fits s.maxBytes Y.length = true ∧ storeBytes s i b Y res =
      .next ((s.setSlot i (some { cap := max b.cap Y.length, data := Y })).respond (.ok res))) ∨
    (fits s.maxBytes Y.length = false ∧ storeBytes s i b Y res = .next (s.respond (.error .allocationError))) := by
  cases h : fits s.maxBytes Y.length
  · exact .inr ⟨rfl, storeBytes_of_not_fits h⟩
  · exact .inl ⟨rfl, storeBytes_of_fits h⟩

/-! ## The locations a state holds -/

/-- Two states with the same stores, the same number of slots and the same buffer behind an id read the same byte there. -/
theorem State.readByte_congr {s t : State} {id : Byte} (hn : t.nscratch = s.nscratch)
    (hst : ∀ r f, id.toNat = 3 * r.index + f.index → (t.store r).field f = (s.store r).field f)
    (hsl : ∀ i, id.toNat = 0x80 + i → t.slot i = s.slot i) (off : Nat) : t.readByte id off = s.readByte id off := by
  obtain ⟨r, f, hi, hb⟩ | ⟨i, hi, -, hb⟩ | ⟨-, hb⟩ := bufRef_cases s.nscratch id
  · simp only [State.readByte, State.bufAt, hn, hb, hst r f hi]
  · simp only [State.readByte, State.bufAt, hn, hb, hsl i hi]
  · simp only [State.readByte, State.bufAt, hn, hb]

end Sys2Proof.Machine
end

