-- ==== Sys2Proof/Laws/Memory.lean ====
section
/-! SUPPORT. Laws/Memory.lean: every operation on the memory keeps `Memory.wf` (10_state.md rules R22 and R25), reset's memory has it,
and the memory primitives of 20_memory.md rule R52. -/

namespace Sys2Proof.Machine

/-- A Bit-Store that meets rules R22 and R25. -/
abbrev BitStore.wf (maxBytes : Option Nat) (x : BitStore) : Prop :=
  ∀ f, (x.field f).len = ceil8 x.numBits ∧ Buf.wf maxBytes (x.field f)

/-- `Memory.wf` said store by store and slot by slot. -/
theorem Memory.wf_iff {s : State} :
    Memory.wf s ↔ (∀ r, (s.store r).wf s.maxBytes) ∧ ∀ i b, s.slot i = some b → Buf.wf s.maxBytes b := by
  unfold Memory.wf
  constructor
  · rintro ⟨h1, h2⟩
    refine ⟨fun r f => h1 r r.mem_all f f.mem_all, fun i b hb => ?_⟩
    exact h2 (some b) (List.mem_of_getElem? (State.slot_eq_some.1 hb)) b (by simp)
  · rintro ⟨h1, h2⟩
    refine ⟨fun r _ f _ => h1 r f, fun v hv b hb => ?_⟩
    obtain ⟨i, hi⟩ := List.getElem?_of_mem hv
    have hvb : v = some b := by simpa using hb
    exact h2 i b (State.slot_eq_some.2 (hvb ▸ hi))

/-- The response is no part of the memory. -/
@[simp] theorem Memory.wf_respond {s : State} {x : Response} : Memory.wf (s.respond x) ↔ Memory.wf s := Iff.rfl

/-- The host's script is no part of the memory. -/
@[simp] theorem Memory.wf_withScript {s : State} {evs : List HostEvent} : Memory.wf (s.withScript evs) ↔ Memory.wf s := Iff.rfl

/-- Releasing a slot keeps the memory well formed. -/
theorem Memory.wf_setSlot_none {s : State} {i : Nat} (h : Memory.wf s) : Memory.wf (s.setSlot i none) := by
  rw [Memory.wf_iff] at h ⊢
  refine ⟨h.1, fun j b hb => ?_⟩
  by_cases hj : j = i
  · subst hj
    by_cases hlt : j < s.nscratch
    · rw [State.slot_setSlot_self s none hlt] at hb; cases hb
    · exact absurd (State.lt_of_slot hb) (by simpa using hlt)
  · exact h.2 j b (by rwa [State.slot_setSlot_of_ne s none hj] at hb)

/-- Putting a well-formed buffer into a slot keeps the memory well formed. -/
theorem Memory.wf_setSlot_some {s : State} {i : Nat} {b : Buf} (h : Memory.wf s) (hb : Buf.wf s.maxBytes b) :
    Memory.wf (s.setSlot i (some b)) := by
  rw [Memory.wf_iff] at h ⊢
  refine ⟨h.1, fun j b' hb' => ?_⟩
  by_cases hj : j = i
  · subst hj
    rw [State.slot_setSlot_self s _ (by simpa using State.lt_of_slot hb')] at hb'
    cases hb'
    exact hb
  · exact h.2 j b' (by rwa [State.slot_setSlot_of_ne s _ hj] at hb')

/-- Replacing a store by a well-formed one keeps the memory well formed. -/
theorem Memory.wf_setStore {s : State} {r : Reg} {x : BitStore} (h : Memory.wf s) (hx : x.wf s.maxBytes) :
    Memory.wf (s.setStore r x) := by
  rw [Memory.wf_iff] at h ⊢
  refine ⟨fun r' => ?_, fun i b hb => h.2 i b hb⟩
  by_cases hr : r' = r
  · subst hr; rw [State.store_setStore_self]; exact hx
  · rw [State.store_setStore_of_ne s x hr]; exact h.1 r'

/-- A buffer emptied keeps rule R25. -/
theorem Buf.wf_empty {maxBytes : Option Nat} {b : Buf} (h : Buf.wf maxBytes b) : Buf.wf maxBytes { cap := b.cap, data := [] } :=
  ⟨Nat.zero_le _, h.2⟩

/-- A buffer grown to hold `Y` and given it keeps rule R25. -/
theorem Buf.wf_stored {maxBytes : Option Nat} {b : Buf} {Y : Bytes} (h : Buf.wf maxBytes b) (hf : fits maxBytes Y.length = true) :
    Buf.wf maxBytes { cap := max b.cap Y.length, data := Y } :=
  ⟨Nat.le_max_right _ _, fits_max h.2 hf⟩

/-- Storing bytes into a live slot keeps the memory well formed. -/
theorem Memory.wf_storeBytes {s t : State} {i : Nat} {b : Buf} {Y : Bytes} {res : Result} (h : Memory.wf s)
    (hb : Buf.wf s.maxBytes b) (ht : storeBytes s i b Y res = .next t) : Memory.wf t := by
  obtain ⟨hf, e⟩ | ⟨-, e⟩ := storeBytes_cases s i b Y res <;> rw [e] at ht <;> cases ht
  · exact Memory.wf_respond.2 (Memory.wf_setSlot_some h (Buf.wf_stored hb hf))
  · exact Memory.wf_respond.2 h

/-- A line keeps its store well formed. -/
theorem BitStore.wf_parseStore {maxBytes : Option Nat} {old new : BitStore} {args : List Token} (h : old.wf maxBytes)
    (hp : parseStore maxBytes old args = .ok new) : new.wf maxBytes := by
  obtain ⟨hn, hf⟩ := parseStore_ok hp
  intro f
  obtain ⟨hc, hd⟩ := hf f
  have hlen : (new.field f).len = ceil8 new.numBits := by
    rcases hd with hd | ⟨he, hd⟩
    · exact hd
    · rw [Buf.len, hd, he]; exact (h f).1
  have hfit : fits maxBytes (ceil8 new.numBits) = true := by
    rcases hn with hn | hn
    · rw [hn, ← (h f).1]; exact fits_mono (h f).2.2 (h f).2.1
    · exact hn
  exact ⟨hlen, by rw [hlen, hc]; exact Nat.le_max_right _ _, by rw [hc]; exact fits_max (h f).2.2 hfit⟩

/-- A register command keeps the memory well formed. -/
theorem Memory.wf_execLine {s t : State} {r : Reg} {args : List Token} (h : Memory.wf s) (ht : execLine r args s = .next t) :
    Memory.wf t := by
  obtain ⟨new, hp, e⟩ | ⟨k, -, e⟩ := execLine_cases r args s <;> rw [e] at ht <;> cases ht
  · exact Memory.wf_respond.2 (Memory.wf_setStore h (BitStore.wf_parseStore ((Memory.wf_iff.1 h).1 r) hp))
  · exact Memory.wf_respond.2 h

/-- The reset input leaves the memory well formed. -/
theorem Memory.wf_resetBlock (s : State) : Memory.wf s.resetBlock := by
  rw [Memory.wf_iff]
  refine ⟨fun r f => ?_, fun i b hb => by simp at hb⟩
  rw [State.store_resetBlock]
  cases f <;> exact ⟨rfl, Nat.zero_le _, fits_zero _⟩

/-- Reset's memory is well formed. -/
theorem Memory.wf_reset : Memory.wf State.reset := Memory.wf_resetBlock State.reset

/-! ## The memory primitives -/

/-- The whole buffer read through `MemRead`. -/
@[simp] theorem Buf.memRead_all (b : Buf) : b.memRead 0 b.len = some b.data := by
  simp [Buf.memRead, Buf.len]

/-- A write below the length keeps the length and the capacity. -/
theorem Buf.memWrite_shape {b b' : Buf} {off : Nat} {v : Bytes} (h : b.memWrite off v = some b') :
    b'.len = b.len ∧ b'.cap = b.cap := by
  unfold Buf.memWrite at h
  split at h
  · next hle =>
    cases h
    refine ⟨?_, rfl⟩
    simp only [Buf.len, Buf.withData, List.length_append, List.length_take, List.length_drop] at hle ⊢
    omega
  · cases h

end Sys2Proof.Machine
end

