-- ==== Sys2Proof/Laws/Merge.lean ====
section
/-! SUPPORT. Laws/Merge.lean: all that the one merge operation behind `MERGE` and `CHAIN` can do (42_bit_merge.md rule R161). -/

namespace Sys2Proof.Machine

@[simp] theorem length_packBytes (t l h : BitValue) : (packBytes t l h).length = ceil8 (packTotal t l h) := length_be _ _

/-- A merge with resolved operands: its refusals, then its answer. -/
theorem mergeInto_of_resolved {s : State} {dst t l h : Byte} {i : Nat} {d bt bl bh : Buf} {tw lw hw : Nat}
    (hd : ScratchHolds s dst i d) (ht : Readable s t bt) (hl : Readable s l bl) (hh : Readable s h bh) :
    mergeInto dst t tw l lw h hw s =
      if dst = t ∨ dst = l ∨ dst = h then .refused .destinationIsOperand
      else if tw ≤ 8 * bt.len ∧ lw ≤ 8 * bl.len ∧ hw ≤ 8 * bh.len then
        storeBytes s i d
          (packBytes { bytes := bt.data, width := tw } { bytes := bl.data, width := lw } { bytes := bh.data, width := hw })
          (.totalBits (tw + lw + hw))
      else .refused .widthExceedsBuffer := by
  simp only [mergeInto, withWrite_of_holds _ hd, withRead_of_readable _ ht, withRead_of_readable _ hl, withRead_of_readable _ hh]
  simp only [BitValue.inRange, Bool.and_eq_true, decide_eq_true_eq, and_assoc, packTotal]
  rfl

/-- A merge answers a next state only with a live destination that is no operand, readable operands and widths within their buffers;
then it stores `pack` of them. -/
theorem mergeInto_eq_next {s x : State} {dst t l h : Byte} {tw lw hw : Nat} (hx : mergeInto dst t tw l lw h hw s = .next x) :
    ∃ i d bt bl bh, ScratchHolds s dst i d ∧ Readable s t bt ∧ Readable s l bl ∧ Readable s h bh ∧
      (dst ≠ t ∧ dst ≠ l ∧ dst ≠ h) ∧ (tw ≤ 8 * bt.len ∧ lw ≤ 8 * bl.len ∧ hw ≤ 8 * bh.len) ∧
      storeBytes s i d
        (packBytes { bytes := bt.data, width := tw } { bytes := bl.data, width := lw } { bytes := bh.data, width := hw })
        (.totalBits (tw + lw + hw)) = .next x := by
  have h0 := hx
  obtain ⟨i, d, hd, h1⟩ := withWrite_eq_next.1 hx
  obtain ⟨bt, ht, h2⟩ := withRead_eq_next.1 h1
  obtain ⟨bl, hl, h3⟩ := withRead_eq_next.1 h2
  obtain ⟨bh, hh, -⟩ := withRead_eq_next.1 h3
  rw [mergeInto_of_resolved hd ht hl hh] at h0
  by_cases hne : dst = t ∨ dst = l ∨ dst = h
  · rw [if_pos hne] at h0; cases h0
  · rw [if_neg hne] at h0
    by_cases hw' : tw ≤ 8 * bt.len ∧ lw ≤ 8 * bl.len ∧ hw ≤ 8 * bh.len
    · rw [if_pos hw'] at h0
      exact ⟨i, d, bt, bl, bh, hd, ht, hl, hh, by simpa only [not_or] using hne, hw', h0⟩
    · rw [if_neg hw'] at h0; cases h0

/-- The id of a store buffer, as a number (rule R30). -/
@[simp] theorem toNat_storeId (r : Reg) (f : Field) : (storeId r f).toNat = 3 * r.index + f.index := by
  cases r <;> cases f <;> rfl

/-- Every store buffer can be read. -/
theorem readable_storeId (s : State) (r : Reg) (f : Field) : Readable s (storeId r f) ((s.store r).field f) :=
  .inr ⟨r, f, toNat_storeId r f, rfl⟩

end Sys2Proof.Machine
end

