-- ==== Sys2Proof/Laws/PerInstr.lean ====
section
/-! SUPPORT. Laws/PerInstr.lean: one lemma per instruction: the opcode byte of its packet and the packet's length, as the formats of
30_encoding.md rules R82 and R83 give them. -/

namespace Sys2Proof

/-- The opcode of an instruction (rule R83). -/
def opcodeOf : Instr → Opcode
  | .bcreate _ _ => .bcreate
  | .breset _ => .breset
  | .bappend _ _ => .bappend
  | .bresizez _ _ => .bresizez
  | .bdestroy _ => .bdestroy
  | .bread _ => .bread
  | .hexdec _ _ => .hexdec
  | .hexren _ => .hexren
  | .merge _ _ _ _ _ _ _ => .merge
  | .chain _ _ _ => .chain
  | .hdr _ => .line
  | .hir _ => .line
  | .sdr _ => .line
  | .sir _ => .line
  | .tdr _ => .line
  | .tir _ => .line
  | .query _ => .query

/-- The length in bytes of an instruction's packet (rules R82, R85). -/
def packetBytes : Instr → Nat
  | .bcreate _ _ => 6
  | .breset _ => 2
  | .bappend _ bytes => 6 + bytes.length
  | .bresizez _ _ => 6
  | .bdestroy _ => 2
  | .bread _ => 2
  | .hexdec _ text => 6 + text.length
  | .hexren _ => 2
  | .merge _ _ _ _ _ _ _ => 17
  | .chain _ _ _ => 3
  | .hdr args => 5 + lineLength args
  | .hir args => 5 + lineLength args
  | .sdr args => 5 + lineLength args
  | .sir args => 5 + lineLength args
  | .tdr args => 5 + lineLength args
  | .tir args => 5 + lineLength args
  | .query _ => 2

theorem length_encodeArgs (args : List Token) : 3 + (encodeArgs args).length = lineLength args := by
  induction args with
  | nil => rfl
  | cons t ts ih => simp only [encodeArgs, lineLength, List.length_cons, List.length_append]; omega

theorem length_encodeLine (r : Reg) (args : List Token) : (encodeLine r args).length = 5 + lineLength args := by
  have hr : r.token.length = 3 := by cases r <;> rfl
  have := length_encodeArgs args
  simp only [encodeLine, List.length_cons, length_encBlob, List.length_append, hr]
  omega

end Sys2Proof

/-- The packet of an instruction has the opcode byte and the length its format gives it. -/
def Sys2Proof.Laws.PacketShape.Statement (i : Sys2Proof.Instr) : Prop :=
  (Sys2Proof.encode i).head? = some (Sys2Proof.opcodeOf i).byte ∧ (Sys2Proof.encode i).length = Sys2Proof.packetBytes i

namespace Sys2Proof.Laws.PacketShape

theorem bcreate (id : Byte) (n : Nat) : Statement (.bcreate id n) := ⟨rfl, by simp [encode, packetBytes]⟩

theorem breset (id : Byte) : Statement (.breset id) := ⟨rfl, rfl⟩

theorem bappend (id : Byte) (bytes : Bytes) : Statement (.bappend id bytes) := ⟨rfl, by simp [encode, packetBytes]; omega⟩

theorem bresizez (id : Byte) (n : Nat) : Statement (.bresizez id n) := ⟨rfl, by simp [encode, packetBytes]⟩

theorem bdestroy (id : Byte) : Statement (.bdestroy id) := ⟨rfl, rfl⟩

theorem bread (id : Byte) : Statement (.bread id) := ⟨rfl, rfl⟩

theorem hexdec (id : Byte) (text : Bytes) : Statement (.hexdec id text) := ⟨rfl, by simp [encode, packetBytes]; omega⟩

theorem hexren (id : Byte) : Statement (.hexren id) := ⟨rfl, rfl⟩

theorem merge (dst t : Byte) (tw : Nat) (l : Byte) (lw : Nat) (h : Byte) (hw : Nat) : Statement (.merge dst t tw l lw h hw) :=
  ⟨rfl, by simp [encode, packetBytes]⟩

theorem chain (dst : Byte) (sr : ShiftReg) (f : Field) : Statement (.chain dst sr f) := ⟨rfl, rfl⟩

theorem hdr (args : List Token) : Statement (.hdr args) := ⟨rfl, length_encodeLine .hdr args⟩

theorem hir (args : List Token) : Statement (.hir args) := ⟨rfl, length_encodeLine .hir args⟩

theorem sdr (args : List Token) : Statement (.sdr args) := ⟨rfl, length_encodeLine .sdr args⟩

theorem sir (args : List Token) : Statement (.sir args) := ⟨rfl, length_encodeLine .sir args⟩

theorem tdr (args : List Token) : Statement (.tdr args) := ⟨rfl, length_encodeLine .tdr args⟩

theorem tir (args : List Token) : Statement (.tir args) := ⟨rfl, length_encodeLine .tir args⟩

theorem query (r : Reg) : Statement (.query r) := ⟨rfl, rfl⟩

end Sys2Proof.Laws.PacketShape
end

