-- ==== Sys2Proof/Tests/Slice0.lean ====
section
/-! SUPPORT. Tests/Slice0.lean: ill-formed terms that WellFormed refuses, packets written out from the spec's encodings, one-step tests
whose expected values are those of 95_test_vectors.md or worked out by hand from the rule named, and for every statement with
hypotheses a state and operands that meet them all. -/

namespace Sys2Proof.Tests

open Sys2Proof Sys2Proof.Machine

/-! ## Helpers -/

/-- The next state of an outcome. -/
def after (o : Out) : Option State :=
  match o with
  | .next s => some s
  | .fault _ => none
  | .refused _ => none

/-- The refusal of an outcome. -/
def stopOf (o : Out) : Option Refusal :=
  match o with
  | .next _ => none
  | .fault _ => none
  | .refused r => some r

/-- The response packet after an outcome. -/
def answer (o : Out) : Option Bytes := (after o).bind State.responsePacket

/-- The bytes of the buffer with an id, after an outcome. -/
def bytesAfter (o : Out) (id : Byte) : Option Bytes := (after o).bind fun s => (s.bufAt id).map Buf.data

/-- Width and contents of a store after an outcome. -/
def storeAfter (o : Out) (r : Reg) : Option (Nat × Bytes × Bytes × Bytes) :=
  (after o).map fun s => ((s.store r).numBits, (s.store r).tdi.data, (s.store r).tdo.data, (s.store r).mask.data)

/-- A store whose capacities are its lengths. -/
def storeOf (n : Nat) (a b c : Bytes) : BitStore :=
  { numBits := n, tdi := { cap := a.length, data := a }, tdo := { cap := b.length, data := b }, mask := { cap := c.length, data := c } }

/-- A state that meets the invariant: `MAXBYTES` 5, four scratch slots of which `B2` is not live, four stores with contents. -/
def demo : State :=
  { stores :=
      { hir := storeOf 6 [0xFF] [0x00] [0x00]
        hdr := storeOf 8 [0xAA] [0x00] [0x55]
        sir := BitStore.atReset
        sdr := storeOf 32 [0xF1, 0xC2, 0xE0, 0x93] [0x00, 0x00, 0x00, 0x01] [0xFF, 0xFF, 0xFF, 0xFF]
        tir := BitStore.atReset
        tdr := storeOf 3 [0x06] [0x00] [0x07] }
    scratch := [some { cap := 4, data := [0x01, 0x35] }, some { cap := 0, data := [] }, none, some { cap := 5, data := [0x06] }]
    maxBytes := some 5
    response := none
    script := [] }

/-! ## WellFormed refuses -/

theorem test_wf_number_too_wide :
    wellFormed (.bcreate 0x80 (2 ^ 32)) = false ∧ wellFormed (.bresizez 0x80 (2 ^ 32)) = false ∧
    wellFormed (.merge 0x80 0x81 (2 ^ 32) 0x82 0 0x83 0) = false ∧ wellFormed (.merge 0x80 0x81 0 0x82 (2 ^ 32) 0x83 0) = false ∧
    wellFormed (.merge 0x80 0x81 0 0x82 0 0x83 (2 ^ 32)) = false := by decide

theorem test_wf_blob_too_long (xs : Bytes) (h : xs.length = 2 ^ 32) :
    wellFormed (.bappend 0x80 xs) = false ∧ wellFormed (.hexdec 0x80 xs) = false := by
  simp [wellFormed, fitsNum32, h]

theorem test_wf_empty_token : ∀ r ∈ Reg.all, wellFormed (lineInstr r [[]]) = false := by decide

theorem test_wf_whitespace_in_token : ∀ r ∈ Reg.all, wellFormed (lineInstr r [[0x38, 0x20]]) = false := by decide

theorem test_wf_line_too_long (r : Reg) (t : Token) (h : t.length = 2 ^ 32) : wellFormed (lineInstr r [t]) = false := by
  cases r <;> simp [lineInstr, wellFormed, lineOk, fitsNum32, lineLength, h]

/-! ## Packets written out from 30_encoding.md rules R82, R83, R88 (most of them in 95_test_vectors.md) -/

/-- 2.7, first row. -/
theorem test_decode_bcreate : decodePacket [0x01, 0x80, 0x00, 0x00, 0x00, 0x10] = .instr (.bcreate 0x80 16) := by decide

/-- `num32` is big-endian (R94): 0x01020304. -/
theorem test_decode_bcreate_order : decodePacket [0x01, 0x83, 0x01, 0x02, 0x03, 0x04] = .instr (.bcreate 0x83 16909060) := by decide

theorem test_decode_breset : decodePacket [0x02, 0x81] = .instr (.breset 0x81) := by decide

/-- P4 step 6. -/
theorem test_decode_bappend :
    decodePacket [0x03, 0x80, 0x00, 0x00, 0x00, 0x03, 0xAA, 0xBB, 0xCC] = .instr (.bappend 0x80 [0xAA, 0xBB, 0xCC]) := by decide

/-- P4 step 7. -/
theorem test_decode_bresizez : decodePacket [0x04, 0x80, 0x00, 0x00, 0x00, 0x02] = .instr (.bresizez 0x80 2) := by decide

/-- P4 step 15. -/
theorem test_decode_bdestroy : decodePacket [0x05, 0x80] = .instr (.bdestroy 0x80) := by decide

/-- P5 step 7: a store buffer. -/
theorem test_decode_bread : decodePacket [0x06, 0x00] = .instr (.bread 0x00) := by decide

/-- P4 step 10. -/
theorem test_decode_hexdec :
    decodePacket [0x10, 0x80, 0x00, 0x00, 0x00, 0x03, 0x61, 0x62, 0x63] = .instr (.hexdec 0x80 [0x61, 0x62, 0x63]) := by decide

/-- P2 step 9. -/
theorem test_decode_hexren : decodePacket [0x11, 0x80] = .instr (.hexren 0x80) := by decide

/-- P4 step 13. -/
theorem test_decode_merge :
    decodePacket [0x20, 0x81, 0x06, 0x00, 0x00, 0x00, 0x0A, 0x80, 0x00, 0x00, 0x00, 0x00, 0x08, 0x00, 0x00, 0x00, 0x0A] =
      .instr (.merge 0x81 0x06 10 0x80 0 0x08 10) := by decide

/-- 2.4, the six `sel` bytes. -/
theorem test_decode_chain :
    [0x00, 0x01, 0x02, 0x04, 0x05, 0x06].map (fun sel : Byte => decodePacket [0x21, 0x80, sel]) =
      [.instr (.chain 0x80 .instruction .tdi), .instr (.chain 0x80 .instruction .tdo), .instr (.chain 0x80 .instruction .mask),
       .instr (.chain 0x80 .data .tdi), .instr (.chain 0x80 .data .tdo), .instr (.chain 0x80 .data .mask)] := by decide

/-- P1 step 1: `HDR 8 TDI (aa)`. -/
theorem test_decode_hdr :
    decodePacket [0x30, 0x00, 0x00, 0x00, 0x0E, 0x48, 0x44, 0x52, 0x20, 0x38, 0x20, 0x54, 0x44, 0x49, 0x20, 0x28, 0x61, 0x61, 0x29] =
      .instr (.hdr [[0x38], [0x54, 0x44, 0x49], [0x28, 0x61, 0x61, 0x29]]) := by decide

/-- P5 step 2: `HIR 6 TDI (FF)`. -/
theorem test_decode_hir :
    decodePacket [0x30, 0x00, 0x00, 0x00, 0x0E, 0x48, 0x49, 0x52, 0x20, 0x36, 0x20, 0x54, 0x44, 0x49, 0x20, 0x28, 0x46, 0x46, 0x29] =
      .instr (.hir [[0x36], [0x54, 0x44, 0x49], [0x28, 0x46, 0x46, 0x29]]) := by decide

/-- V103: `SDR 33`. -/
theorem test_decode_sdr :
    decodePacket [0x30, 0x00, 0x00, 0x00, 0x06, 0x53, 0x44, 0x52, 0x20, 0x33, 0x33] = .instr (.sdr [[0x33, 0x33]]) := by decide

/-- P5 step 3: `SIR 10 TDI (02c5)`. -/
theorem test_decode_sir :
    decodePacket [0x30, 0x00, 0x00, 0x00, 0x11, 0x53, 0x49, 0x52, 0x20, 0x31, 0x30, 0x20, 0x54, 0x44, 0x49, 0x20,
      0x28, 0x30, 0x32, 0x63, 0x35, 0x29] =
      .instr (.sir [[0x31, 0x30], [0x54, 0x44, 0x49], [0x28, 0x30, 0x32, 0x63, 0x35, 0x29]]) := by decide

/-- V101: `TDR 0`, here with a tab before the token and two spaces after it (R87). -/
theorem test_decode_tdr :
    decodePacket [0x30, 0x00, 0x00, 0x00, 0x07, 0x09, 0x54, 0x44, 0x52, 0x20, 0x20, 0x30] = .instr (.tdr [[0x30]]) := by decide

/-- P5 step 4: `TIR 4 TDI (0a)`. -/
theorem test_decode_tir :
    decodePacket [0x30, 0x00, 0x00, 0x00, 0x0E, 0x54, 0x49, 0x52, 0x20, 0x34, 0x20, 0x54, 0x44, 0x49, 0x20, 0x28, 0x30, 0x61, 0x29] =
      .instr (.tir [[0x34], [0x54, 0x44, 0x49], [0x28, 0x30, 0x61, 0x29]]) := by decide

/-- R205 and R23: the six stores by index. -/
theorem test_decode_query :
    [0x00, 0x01, 0x02, 0x03, 0x04, 0x05].map (fun r : Byte => decodePacket [0x31, r]) =
      [.instr (.query .hir), .instr (.query .hdr), .instr (.query .sir), .instr (.query .sdr), .instr (.query .tir),
       .instr (.query .tdr)] := by decide

/-- V115 to V122: each malformed packet. -/
theorem test_decode_malformed :
    ([[0x00], [0x07, 0x80], [0x06], [0x06, 0x80, 0x00], [0x30, 0x00, 0x00, 0x00, 0x05, 0x48, 0x44, 0x52], [0x21, 0x80, 0x03],
      [0x21, 0x80, 0x08], [0x31, 0x06], []] : List Packet).map (fun p => stopOf (runPacket p demo)) =
      List.replicate 9 (some .badPacket) := by decide

/-- V72 (`HDRX 8`) and V128 (the empty line). -/
theorem test_decode_unknown_line :
    answer (runPacket [0x30, 0x00, 0x00, 0x00, 0x06, 0x48, 0x44, 0x52, 0x58, 0x20, 0x38] State.reset) = some [0x04] ∧
    answer (runPacket [0x30, 0x00, 0x00, 0x00, 0x00] State.reset) = some [0x04] := by decide

/-! ## One step -/

/-- V90: above `MAXBYTES` nothing is created. -/
theorem test_bcreate_too_large :
    answer (exec (.bcreate 0x82 6) demo) = some [0x01] ∧ bytesAfter (exec (.bcreate 0x82 6) demo) 0x82 = none := by decide

/-- V111: a live slot is refused. -/
theorem test_bcreate_live : stopOf (exec (.bcreate 0x80 1) demo) = some .alreadyLive := by decide

/-- V5: still live, empty. -/
theorem test_breset : bytesAfter (exec (.breset 0x80) demo) 0x80 = some [] := by decide

/-- V125: a store buffer is refused. -/
theorem test_breset_store : stopOf (exec (.breset 0x03) demo) = some .storeBufferWrite := by decide

/-- V2: appended at the end, in order. -/
theorem test_bappend : bytesAfter (exec (.bappend 0x80 [0xF1, 0xC2]) demo) 0x80 = some [0x01, 0x35, 0xF1, 0xC2] := by decide

/-- V92: no part of an append that does not fit. -/
theorem test_bappend_too_large :
    answer (exec (.bappend 0x80 [1, 2, 3, 4]) demo) = some [0x01] ∧
    bytesAfter (exec (.bappend 0x80 [1, 2, 3, 4]) demo) 0x80 = some [0x01, 0x35] := by decide

/-- V3: the bytes it held become zero too. -/
theorem test_bresizez : bytesAfter (exec (.bresizez 0x80 2) demo) 0x80 = some [0x00, 0x00] := by decide

/-- V126's twin for `BDESTROY`: a store buffer cannot be destroyed (R28). -/
theorem test_bdestroy :
    bytesAfter (exec (.bdestroy 0x80) demo) 0x80 = none ∧ stopOf (exec (.bdestroy 0x11) demo) = some .storeBufferWrite := by decide

/-- R84's layout: status, length, bytes. -/
theorem test_bread : answer (exec (.bread 0x80) demo) = some [0x00, 0x00, 0x00, 0x00, 0x02, 0x01, 0x35] := by decide

/-- V110, V123, V124. -/
theorem test_bread_refused :
    [0x82, 0x12, 0x84].map (fun id : Byte => stopOf (exec (.bread id) demo)) =
      [some .notLive, some .badBufferId, some .badBufferId] := by decide

/-- V7: `eF` with the high nibble first. -/
theorem test_hexdec : bytesAfter (exec (.hexdec 0x81 [0x65, 0x46]) demo) 0x81 = some [0xEF] := by decide

/-- V9 and V96: odd text empties the target, and is reported before the size. -/
theorem test_hexdec_odd :
    answer (exec (.hexdec 0x80 (List.replicate 13 0x30)) demo) = some [0x02] ∧
    bytesAfter (exec (.hexdec 0x80 (List.replicate 13 0x30)) demo) 0x80 = some [] := by decide

/-- V10: a store buffer, all eight bits though the width is 6, upper case. -/
theorem test_hexren : answer (exec (.hexren 0x00) demo) = some [0x00, 0x00, 0x00, 0x00, 0x02, 0x46, 0x46] := by decide

/-- E1: tail 06/3, line F1C2E093/32, head of width 0. -/
theorem test_merge :
    bytesAfter (exec (.merge 0x80 0x83 3 0x09 32 0x81 0) demo) 0x80 = some [0x06, 0xF1, 0xC2, 0xE0, 0x93] := by decide

/-- V112 and V113. -/
theorem test_merge_refused :
    stopOf (exec (.merge 0x80 0x80 8 0x81 0 0x81 0) demo) = some .destinationIsOperand ∧
    stopOf (exec (.merge 0x81 0x83 9 0x80 0 0x80 0) demo) = some .widthExceedsBuffer := by decide

/-- V40a with `HDR` at 8 bits: 43 bits need 6 bytes and `MAXBYTES` is 5. -/
theorem test_chain_too_large : answer (exec (.chain 0x80 .data .tdi) demo) = some [0x01] := by decide

/-- V40e's point: the bits of `HIR.tdi` above its width are dropped. -/
theorem test_chain :
    answer (exec (.chain 0x80 .instruction .tdi) demo) = some [0x00, 0x00, 0x00, 0x00, 0x06] ∧
    bytesAfter (exec (.chain 0x80 .instruction .tdi) demo) 0x80 = some [0x3F] := by decide

/-- E6: a width change zeroes the fields the line does not name. -/
theorem test_hdr :
    storeAfter (exec (.hdr [[0x36], keyword .tdi, [0x28, 0x33, 0x41, 0x29]]) demo) .hdr = some (6, [0x3A], [0x00], [0x00]) := by decide

/-- V41's rule: the same width keeps them. -/
theorem test_hdr_keeps :
    storeAfter (exec (.hdr [[0x38], keyword .tdo, [0x28, 0x33, 0x41, 0x29]]) demo) .hdr = some (8, [0xAA], [0x3A], [0x55]) := by decide

/-- V75 in `HIR`: bits above the width are stored as given. -/
theorem test_hir :
    storeAfter (exec (.hir [[0x36], keyword .mask, [0x28, 0x46, 0x46, 0x29]]) demo) .hir = some (6, [0xFF], [0x00], [0xFF]) := by decide

/-- V43: the pairs in any order. -/
theorem test_sdr :
    storeAfter (exec (.sdr [[0x38], keyword .mask, [0x28, 0x66, 0x66, 0x29], keyword .tdi, [0x28, 0x61, 0x62, 0x29]]) demo) .sdr =
      some (8, [0xAB], [0x00], [0xFF]) := by decide

/-- V105: the size is checked before the pairs. -/
theorem test_sdr_too_large :
    answer (exec (.sdr [[0x34, 0x31], [0x46, 0x4F, 0x4F], [0x28, 0x7A, 0x7A, 0x29]]) demo) = some [0x01] := by decide

/-- V77: a value of the wrong length. -/
theorem test_sir :
    answer (exec (.sir [[0x31, 0x30], keyword .tdi, [0x28, 0x63, 0x35, 0x29]]) demo) = some [0x03] ∧
    storeAfter (exec (.sir [[0x31, 0x30], keyword .tdi, [0x28, 0x63, 0x35, 0x29]]) demo) .sir = some (0, [], [], []) := by decide

/-- V79 and V83. -/
theorem test_tir_errors :
    answer (exec (.tir [[0x38], [0x46, 0x4F, 0x4F], [0x28, 0x7A, 0x7A, 0x29]]) demo) = some [0x05] ∧
    answer (exec (.tir [[0x38], keyword .tdi, [0x28, 0x61, 0x61, 0x29], keyword .mask]) demo) = some [0x06] := by decide

/-- V74: width 0. -/
theorem test_tdr_zero : storeAfter (exec (.tdr [[0x30]]) demo) .tdr = some (0, [], [], []) := by decide

/-- V45's rule: a leading zero is the same width. -/
theorem test_tdr_leading_zero : storeAfter (exec (.tdr [[0x30, 0x33]]) demo) .tdr = some (3, [0x06], [0x00], [0x07]) := by decide

/-- V88. -/
theorem test_query :
    answer (exec (.query .hdr) demo) =
      some [0x00, 0x00, 0x00, 0x00, 0x08, 0x00, 0x00, 0x00, 0x01, 0xAA, 0x00, 0x00, 0x00, 0x01, 0x00, 0x00, 0x00, 0x00, 0x01, 0x55] := by
  decide

/-- R84: with `MAXBYTES` as no bound the packet level is left out, and the response itself holds the numbers. -/
theorem test_no_packet_without_bound :
    answer (exec (.query .hdr) { demo with maxBytes := none }) = none ∧
    (after (exec (.query .hdr) { demo with maxBytes := none })).map (·.response) =
      some (some (.ok (.store 8 [0xAA] [0x00] [0x55]))) := by decide

/-! ## Table words (log entry 16) -/

theorem test_table_words :
    decodeTableWord 48 0x100000008001 = some (.bcreate 0x80 16) ∧ decodeTableWord 8 0x31 = some (.query .hir) ∧
    decodeTableWord 8 0x03 = some (.bappend 0x00 []) ∧ decodeTableWord 8 0x20 = some (.merge 0 0 0 0 0 0 0) ∧
    decodeTableWord 8 0x30 = none ∧ decodeTableWord 64 0x5244480300000030 = some (.hdr []) ∧ decodeTableWord 8 0x07 = none := by decide

theorem test_step_table_word :
    answer (step (State.reset.withFetchWord 48 0x100000008001)) = some [0x00] ∧
    stopOf (step (State.reset.withFetchWord 8 0x06)) = none ∧
    stopOf (step (State.reset.withFetchWord 8 0x01)) = some .storeBufferWrite := by decide

/-! ## Witnesses: every statement with hypotheses has a state and operands that meet them -/

theorem test_witness_invariant : Inv demo := by
  refine ⟨⟨by decide, by decide, fun m h => ?_⟩, by decide⟩
  cases h
  decide

/-- DecodeOfEncode, DecodedInstrIsWellFormed: well-formed instructions at the ends of their ranges. -/
theorem test_witness_well_formed :
    ([.bcreate 0xFF (2 ^ 32 - 1), .breset 0, .bappend 0x80 [], .bresizez 0x80 0, .bdestroy 0xFF, .bread 0x11, .hexdec 0x80 [0x00],
      .hexren 0x7F, .merge 0 1 (2 ^ 32 - 1) 2 0 3 1, .chain 0 .data .mask, .hdr [], .hir [[0x00]], .sdr [[0xFF]], .tir [[0x30]],
      .sir [[0x28]], .tdr [[0x31], [0x32]], .query .tdr] : List Instr).all wellFormed = true := by decide

/-- EncodeOfDecode. -/
theorem test_witness_EncodeOfDecode :
    decodePacket [0x21, 0x80, 0x06] = .instr (.chain 0x80 .data .mask) ∧
    ∀ r args, (Instr.chain 0x80 .data .mask) ≠ lineInstr r args :=
  ⟨by decide, fun r args => by cases r <;> simp [lineInstr]⟩

/-- Num32FieldsAreBigEndian: payloads of the length a field gives. -/
theorem test_witness_Num32 :
    ([] : Bytes).length = (0 : Byte).toNat * 2 ^ 24 + (0 : Byte).toNat * 2 ^ 16 + (0 : Byte).toNat * 2 ^ 8 + (0 : Byte).toNat ∧
    (List.replicate 258 (0 : Byte)).length =
      (0 : Byte).toNat * 2 ^ 24 + (0 : Byte).toNat * 2 ^ 16 + (1 : Byte).toNat * 2 ^ 8 + (2 : Byte).toNat := by
  rw [List.length_replicate]
  decide

/-- MalformedPacketsAreRefused: both sides, at each field's last good value. -/
theorem test_witness_Malformed :
    PacketWellFormed [0x21, 0x80, 0x06] ∧ ¬ PacketWellFormed [0x21, 0x80, 0x07] ∧ PacketWellFormed [0x31, 0x05] ∧
    ¬ PacketWellFormed [0x31, 0x06] ∧ PacketWellFormed [0x03, 0x80, 0x00, 0x00, 0x00, 0x00] ∧
    ¬ PacketWellFormed [0x03, 0x80, 0x00, 0x00, 0x00, 0x01] ∧ ¬ PacketWellFormed [] := by
  refine ⟨?_, ?_, ?_, ?_, ?_, ?_, ?_⟩ <;> simp [PacketWellFormed, val]

/-- TokensAreMaximalRuns. -/
theorem test_witness_tokens :
    [0x38] ∈ tokens [0x20, 0x38, 0x09] ∧ isWs 0x0D = true ∧ isWs 0x0E = false ∧ isWs 0x08 = false := by decide

/-- FirstTokenSelectsTheStore, both branches. -/
theorem test_witness_FirstToken :
    tokens [0x54, 0x49, 0x52, 0x20, 0x30] = Reg.tir.token :: [[0x30]] ∧ tokens [0x20, 0x20] = [] ∧
    tokens [0x54, 0x49, 0x52, 0x30] = [[0x54, 0x49, 0x52, 0x30]] := by decide

/-- StepRunsTheDecodedInstruction and StepOnOtherEvents: an event of each sort. -/
theorem test_witness_step :
    decodePacket [0x31, 0x01] = .instr (.query .hdr) ∧ decodePacket [0x30, 0x00, 0x00, 0x00, 0x00] = .unknownLine ∧
    decodePacket [0x00] = .reject .reservedOpcode ∧ (demo.withScript [.command [0x31, 0x01], .reset]).script = [.command [0x31, 0x01], .reset] ∧
    (demo.withScript [.reset]).script = [.reset] ∧ demo.script = [] := by decide

/-- BuffersAreNotShared. -/
theorem test_witness_NotShared :
    bufRef 4 0x11 = some (.store .tdr .mask) ∧ bufRef 4 0x83 = some (.scratch 3) ∧ bufRef 4 0x84 = none ∧ bufRef 4 0x12 = none ∧
    bufRef 4 0x7F = none ∧ (0x81 : Byte).toNat ≠ 0x80 + 0 := by decide

/-- OperandResolutionRefuses: each refusal, at the ends of its range of ids. -/
theorem test_witness_refuses :
    WriteRefusedWith demo 0x12 .badBufferId ∧ WriteRefusedWith demo 0x7F .badBufferId ∧ WriteRefusedWith demo 0x84 .badBufferId ∧
    WriteRefusedWith demo 0xFF .badBufferId ∧ WriteRefusedWith demo 0x00 .storeBufferWrite ∧
    WriteRefusedWith demo 0x11 .storeBufferWrite ∧ WriteRefusedWith demo 0x82 .notLive ∧ ReadRefusedWith demo 0x12 .badBufferId ∧
    ReadRefusedWith demo 0x84 .badBufferId ∧ ReadRefusedWith demo 0x82 .notLive := by
  refine ⟨.inl ?_, .inl ?_, .inl ?_, .inl ?_, .inr (.inl ?_), .inr (.inl ?_), .inr (.inr ⟨rfl, 2, ?_⟩), .inl ?_, .inl ?_,
    .inr ⟨rfl, 2, ?_⟩⟩ <;> decide

/-- The Byte Buffer and Hex Codec statements and `MERGE`'s: a buffer of each sort. -/
theorem test_witness_buffers :
    ScratchHolds demo 0x80 0 { cap := 4, data := [0x01, 0x35] } ∧ ScratchFree demo 0x82 2 ∧ NamesStore 0x11 ∧ NamesNoBuffer demo 0x12 ∧
    NamesNoBuffer demo 0x84 := by decide

/-- Every operand that can be read: a scratch buffer and a store buffer. -/
theorem test_witness_readable :
    Readable demo 0x83 { cap := 5, data := [0x06] } ∧ Readable demo 0x11 { cap := 1, data := [0x07] } ∧
    Readable demo 0x00 { cap := 1, data := [0xFF] } :=
  ⟨.inl ⟨3, by decide⟩, .inr ⟨.tdr, .mask, by decide⟩, .inr ⟨.hir, .tdi, by decide⟩⟩

/-- Both sides of `MAXBYTES`, where they meet. -/
theorem test_witness_fits :
    fits demo.maxBytes 5 = true ∧ fits demo.maxBytes 6 = false ∧ fits demo.maxBytes (2 + 3) = true ∧ fits demo.maxBytes (2 + 4) = false ∧
    fits none 6 = true ∧ (ensure (some 5) { cap := 4, data := [] } 5).isSome = true ∧ ensure (some 5) { cap := 4, data := [] } 6 = none := by
  decide

/-- MemoryPrimitives: reads and writes that end at the length, and past it. -/
theorem test_witness_MemoryPrimitives :
    ({ cap := 4, data := [1, 2] } : Buf).memRead 1 1 = some [2] ∧ ({ cap := 4, data := [1, 2] } : Buf).memRead 1 2 = none ∧
    ({ cap := 4, data := [1, 2] } : Buf).memWrite 1 [3] = some { cap := 4, data := [1, 3] } := by decide

/-- HexDigitValues: the ends of each range and what lies beside them. -/
theorem test_witness_digits :
    [0x2F, 0x30, 0x39, 0x3A, 0x40, 0x41, 0x46, 0x47, 0x60, 0x61, 0x66, 0x67].map hexVal =
      [none, some 0, some 9, none, none, some 10, some 15, none, none, some 10, some 15, none] := by decide

/-- HexdecDecodesIntoTheBuffer: text of odd length, text with a character that is no digit, good text that fits and good text that does
not. -/
theorem test_witness_Hexdec :
    ([0x61] : Bytes).length % 2 = 1 ∧ (∃ c ∈ ([0x30, 0x67] : Bytes), hexVal c = none) ∧
    (∀ c ∈ ([0x30, 0x66] : Bytes), (hexVal c).isSome = true) ∧
    (∀ c ∈ (List.replicate 12 0x30 : Bytes), (hexVal c).isSome = true) ∧ fits demo.maxBytes 1 = true ∧ fits demo.maxBytes 6 = false := by
  decide

/-- HexRoundTrip. -/
theorem test_witness_HexRoundTrip : decodeHex [0x61, 0x42] = some [0xAB] := by decide

/-- PackIsRightAligned, BitSerialFormIsPack, StreamingFormIsPack: widths at both ends of the range; PackProperties: a canonical line. -/
theorem test_witness_pack :
    ({ bytes := [0x01], width := 8 } : BitValue).inRange = true ∧ ({ bytes := [], width := 0 } : BitValue).inRange = true ∧
    ({ bytes := [0x01, 0x55], width := 9 } : BitValue).inRange = true ∧ ({ bytes := [], width := 1 } : BitValue).inRange = false ∧
    ([0x3F] : Bytes).length = ceil8 6 ∧ val [0x3F] < 2 ^ 6 := by decide

/-- V26 by the three forms. -/
theorem test_pack_forms :
    packBytes ⟨[0x01, 0x55], 9⟩ ⟨[0x02, 0xAA], 10⟩ ⟨[0x01], 2⟩ = [0x15, 0x5A, 0xA9] ∧
    packSerial ⟨[0x01, 0x55], 9⟩ ⟨[0x02, 0xAA], 10⟩ ⟨[0x01], 2⟩ = [0x15, 0x5A, 0xA9] ∧
    packStream ⟨[0x01, 0x55], 9⟩ ⟨[0x02, 0xAA], 10⟩ ⟨[0x01], 2⟩ = [0x15, 0x5A, 0xA9] := by decide

/-- MergePacksThreeOperands: a width at its buffer's end and past it, a total that fits and one that does not. -/
theorem test_witness_Merge :
    (0x80 : Byte) ≠ 0x83 ∧ (0x80 : Byte) ≠ 0x11 ∧ 8 ≤ 8 * ({ cap := 5, data := [0x06] } : Buf).len ∧
    ¬ (9 ≤ 8 * ({ cap := 5, data := [0x06] } : Buf).len) ∧ fits demo.maxBytes (ceil8 (8 + 32 + 0)) = true ∧
    fits demo.maxBytes (ceil8 (8 + 32 + 1)) = false := by decide

/-- The same statement: a destination among the operands with every width in range, and with one out of range too. -/
theorem test_witness_Merge_destination :
    stopOf (exec (.merge 0x83 0x83 8 0x83 0 0x83 0) demo) = some .destinationIsOperand ∧
    ScratchHolds demo 0x83 3 { cap := 5, data := [0x06] } ∧
    (stopOf (exec (.merge 0x83 0x83 9 0x83 0 0x83 0) demo)).isSome = true := by decide

/-- ResponsePacketLayout: the largest number that fits its field, and the first that does not and so has no packet. -/
theorem test_witness_Layout :
    (Response.ok (.totalBits (2 ^ 32 - 1))).packet = some [0x00, 0xFF, 0xFF, 0xFF, 0xFF] ∧
    (Response.ok (.totalBits (2 ^ 32))).packet = none ∧ (255 : Nat) < 256 ^ 1 ∧
    ({ demo with maxBytes := none } : State).responsePacket = none ∧
    (demo.respond (.error .malformedHexError)).responsePacket = some [0x02] := by decide

/-- ChainPacksTrailerBodyHeader: the data stores' total does not fit, the instruction stores' does. -/
theorem test_witness_Chain :
    Memory.wf demo ∧ fits demo.maxBytes (ceil8 (3 + 32 + 8)) = false ∧ fits demo.maxBytes (ceil8 (0 + 0 + 6)) = true ∧
    (demo.store .tdr).numBits + (demo.store .sdr).numBits + (demo.store .hdr).numBits = 43 := by decide

/-- MergeDependsOnOperandsOnly: two states that hold the same operands and different destinations. -/
theorem test_witness_MergeDepends :
    let other := demo.setSlot 0 (some { cap := 2, data := [0xFF] })
    ScratchHolds other 0x80 0 { cap := 2, data := [0xFF] } ∧ other.maxBytes = demo.maxBytes ∧
    (demo.bufAt 0x83).map Buf.data = (other.bufAt 0x83).map Buf.data ∧
    (after (exec (.merge 0x80 0x83 3 0x83 8 0x83 1) demo)).isSome = true := by decide

/-- NumbitsIsDecimal, KeywordsAndValues. -/
theorem test_witness_tokens_of_a_line :
    decimal [0x30, 0x31, 0x36] = some 16 ∧ decimal [] = none ∧ decimal [0x38, 0x2F] = none ∧ decimal [0x3A] = none ∧
    ofKeyword [0x74, 0x64, 0x69] = none ∧ ofKeyword [0x4D, 0x41, 0x53, 0x4B] = some .mask ∧
    stripParens [0x28, 0x28, 0x29, 0x29] = some [0x28, 0x29] ∧ stripParens [0x28] = none ∧ stripParens [0x28, 0x29] = some [] := by decide

/-- LineSetsItsStore and LineErrorsInTokenOrder: a kept width, a new width that fits, a width that does not. -/
theorem test_witness_GoodWidth :
    GoodWidth demo .hdr [0x38] 8 ∧ GoodWidth demo .hdr [0x34, 0x30] 40 ∧
    (decimal [0x34, 0x31] = some 41 ∧ 41 ≠ (demo.store .hdr).numBits ∧ fits demo.maxBytes (ceil8 41) = false) :=
  ⟨⟨by decide, .inl (by decide)⟩, ⟨by decide, .inr (by decide)⟩, by decide⟩

/-- The same statements: pairs that raise nothing, and each thing that raises an error after them. -/
theorem test_witness_GoodPairs :
    GoodPairs 8 [(.tdo, [0x61, 0x62]), (.mask, [0x46, 0x46])] ∧ GoodPairs 0 [(.tdi, [])] ∧ GoodPairs 8 [] ∧
    (∀ f, ([0x46] : Token) ≠ keyword f) ∧ Field.tdi ∉ [Field.tdo, Field.mask] ∧ decodeHex [0x67, 0x30] = none ∧
    decodeHex [] = some [] ∧ ([] : Bytes).length ≠ ceil8 8 := by
  refine ⟨⟨by decide, ?_⟩, ⟨by decide, ?_⟩, ⟨by decide, by simp⟩, fun f => by cases f <;> decide, by decide, by decide, by decide,
    by decide⟩
  · intro p hp
    simp only [List.mem_cons, List.not_mem_nil, or_false] at hp
    rcases hp with rfl | rfl
    · exact ⟨[0xAB], by decide, by decide⟩
    · exact ⟨[0xFF], by decide, by decide⟩
  · intro p hp
    simp only [List.mem_cons, List.not_mem_nil, or_false] at hp
    subst hp
    exact ⟨[], by decide, by decide⟩

/-- LineErrorsInTokenOrder: a value token without its parentheses. -/
theorem test_witness_no_parentheses : ∀ h : Bytes, ([0x35] : Bytes) ≠ 0x28#8 :: (h ++ [0x29#8]) := by simp

/-- LineIsAllOrNothing, LinesFrame, ErrorsChangeNothing, ErrorKindsAndCodes: a line that succeeds, a line and a `HEXDEC` that do not. -/
theorem test_witness_line_outcomes :
    (after (exec (.hdr [[0x38]]) demo)).map (·.response) = some (some (.ok .empty)) ∧
    (after (exec (.hdr [[0x78]]) demo)).map (·.response) = some (some (.error .malformedLineError)) ∧
    (after (exec (.hexdec 0x80 [0x67]) demo)).map (·.response) = some (some (.error .malformedHexError)) := by decide

/-- LineReadsOnlyItsStore: two states that agree on one store. -/
theorem test_witness_LineReadsOnly :
    (demo.setSlot 1 none).store .hdr = demo.store .hdr ∧ (demo.setSlot 1 none).maxBytes = demo.maxBytes ∧ demo.setSlot 1 none ≠ demo := by
  decide

/-- LinesOverTime, last part: a change of width and back, in a store with contents. -/
theorem test_witness_LinesOverTime :
    decimal [0x38] = some 8 ∧ decimal [0x36] = some 6 ∧ (demo.store .hdr).numBits = 8 ∧
    storeAfter ((after (exec (.hdr [[0x36]]) demo)).elim (.refused .badPacket) (exec (.hdr [[0x38]]))) .hdr =
      some (8, [0x00], [0x00], [0x00]) := by decide

/-- QueryReturnsTheStore: the first reserved `reg`. -/
theorem test_witness_Query : 5 < (0x06 : Byte).toNat ∧ ¬ 5 < (0x05 : Byte).toNat := by decide

/-- StepKeepsInvariant, CapacityNeverShrinks: a state that meets the invariant, steps, and changes a buffer. -/
theorem test_witness_StepKeepsInvariant :
    Memory.wf (demo.withScript [.command [0x02, 0x80]]) ∧
    bytesAfter (step (demo.withScript [.command [0x02, 0x80]])) 0x80 = some [] := by decide

/-- ReadersChangeNothing, BufferWritersFrame. -/
theorem test_witness_frames :
    (after (exec (.bread 0x80) demo)).isSome = true ∧ (after (exec (.hexren 0x11) demo)).isSome = true ∧
    (after (exec (.query .sir) demo)).isSome = true ∧ writtenBuffer (.bappend 0x80 [1]) = some 0x80 ∧
    (after (exec (.bappend 0x80 [1]) demo)).isSome = true := by decide

/-- AllocationErrorExactlyAboveMaxBytes: a command that needs one byte too many, and one that needs exactly `MAXBYTES`. -/
theorem test_witness_Needs :
    Needs demo 6 (.bappend 0x80 [1, 2, 3, 4]) ∧ answer (exec (.bappend 0x80 [1, 2, 3, 4]) demo) = some [0x01] ∧
    Needs demo 5 (.bappend 0x80 [1, 2, 3]) ∧ answer (exec (.bappend 0x80 [1, 2, 3]) demo) = some [0x00] :=
  ⟨⟨0, { cap := 4, data := [0x01, 0x35] }, by decide⟩, by decide, ⟨0, { cap := 4, data := [0x01, 0x35] }, by decide⟩, by decide⟩

/-- ResponseNumbersFitTheirFields. -/
theorem test_witness_ResponseNumbers :
    demo.maxBytes = some 5 ∧ (after (exec (.query .sdr) demo)).map (·.response) =
      some (some (.ok (.store 32 [0xF1, 0xC2, 0xE0, 0x93] [0x00, 0x00, 0x00, 0x01] [0xFF, 0xFF, 0xFF, 0xFF]))) := by decide

/-- CapacityIsUnobservable: two states that differ in a capacity alone. -/
theorem test_witness_Capacity :
    let other := demo.setSlot 0 (some { cap := 2, data := [0x01, 0x35] })
    demo.forgetCap = other.forgetCap ∧ demo ≠ other := by decide

/-- InstancesAreIndependent: two instances that both step. -/
theorem test_witness_Instances :
    stepInstance 0 [demo.withScript [.command [0x02, 0x80]], demo] =
      .next [(demo.setSlot 0 (some { cap := 4, data := [] })).respond (.ok .empty), demo] := by rfl

end Sys2Proof.Tests
end

/-! # The statements of 00_scope.md: every step keeps the invariant, every command answers, and the answers fit their packet -/

/-! ## Case analysis of the commands -/

namespace Sys2Proof

/-- The 17 commands with the six register commands taken as one (rule R88): the case split the proofs below use. -/
theorem Instr.casesLine {motive : Instr → Prop}
    (line : ∀ r args, motive (lineInstr r args))
    (bcreate : ∀ id n, motive (.bcreate id n))
    (breset : ∀ id, motive (.breset id))
    (bappend : ∀ id bytes, motive (.bappend id bytes))
    (bresizez : ∀ id n, motive (.bresizez id n))
    (bdestroy : ∀ id, motive (.bdestroy id))
    (bread : ∀ id, motive (.bread id))
    (hexdec : ∀ id text, motive (.hexdec id text))
    (hexren : ∀ id, motive (.hexren id))
    (merge : ∀ dst t tw l lw h hw, motive (.merge dst t tw l lw h hw))
    (chain : ∀ dst sr f, motive (.chain dst sr f))
    (query : ∀ r, motive (.query r)) (i : Instr) : motive i := by
  cases i with
  | bcreate id n => exact bcreate id n
  | breset id => exact breset id
  | bappend id bytes => exact bappend id bytes
  | bresizez id n => exact bresizez id n
  | bdestroy id => exact bdestroy id
  | bread id => exact bread id
  | hexdec id text => exact hexdec id text
  | hexren id => exact hexren id
  | merge dst t tw l lw h hw => exact merge dst t tw l lw h hw
  | chain dst sr f => exact chain dst sr f
  | hdr args => exact line .hdr args
  | hir args => exact line .hir args
  | sdr args => exact line .sdr args
  | sir args => exact line .sir args
  | tdr args => exact line .tdr args
  | tir args => exact line .tir args
  | query r => exact query r

end Sys2Proof

namespace Sys2Proof.Machine

@[simp] theorem mayRaise_lineInstr (r : Reg) (args : List Token) : mayRaise (lineInstr r args) = lineKinds := by
  cases r <;> rfl

@[simp] theorem resultFits_lineInstr (r : Reg) (args : List Token) (res : Result) :
    resultFits (lineInstr r args) res ↔ res = .empty := by
  cases r <;> rfl

/-! ## What each command does where it answers -/

@[simp] theorem finish_eq_next {s t : State} {res : Result} : finish s res = .next t ↔ t = s.respond (.ok res) := by
  rw [finish, Host.Outcome.next.injEq, eq_comm]

@[simp] theorem raise_eq_next {s t : State} {k : ErrorKind} : raise s k = .next t ↔ t = s.respond (.error k) := by
  rw [raise, Host.Outcome.next.injEq, eq_comm]

/-- `BCREATE` (rule R122) answers only on a free slot: the buffer created, or `AllocationError`. -/
theorem exec_bcreate_eq_next {s t : State} {id : Byte} {n : Nat} (h : exec (.bcreate id n) s = .next t) :
    ∃ i, ScratchFree s id i ∧
      ((fits s.maxBytes n = true ∧ t = (s.setSlot i (some { cap := n, data := [] })).respond (.ok .empty)) ∨
        (fits s.maxBytes n = false ∧ t = s.respond (.error .allocationError))) := by
  rw [exec, execBcreate] at h
  cases hr : resolveSlot s id with
  | refuse r => simp only [hr] at h; cases h
  | ok i =>
    obtain ⟨hid, hi⟩ := resolveSlot_eq_ok.1 hr
    cases hs : s.slot i with
    | some b => simp only [hr, hs] at h; cases h
    | none =>
      simp only [hr, hs] at h
      refine ⟨i, ⟨hid, hi, hs⟩, ?_⟩
      cases hf : fits s.maxBytes n
      · exact .inr ⟨rfl, by simpa [hf] using h⟩
      · exact .inl ⟨rfl, by simpa [hf] using h⟩

/-- `BRESET` (rule R123). -/
theorem exec_breset_eq_next {s t : State} {id : Byte} :
    exec (.breset id) s = .next t ↔ ∃ i b, ScratchHolds s id i b ∧
      t = (s.setSlot i (some { cap := b.cap, data := [] })).respond (.ok .empty) := by
  simp only [exec, execBreset, withWrite_eq_next, finish_eq_next, Buf.withData]

/-- `BAPPEND` (rule R124). -/
theorem exec_bappend_eq_next {s t : State} {id : Byte} {V : Bytes} :
    exec (.bappend id V) s = .next t ↔ ∃ i b, ScratchHolds s id i b ∧
      storeBytes s i b (b.data ++ V) .empty = .next t := by
  simp only [exec, execBappend, withWrite_eq_next]

/-- `BRESIZEZ` checks the size before it makes the zeros, which is storing them: they are `n` bytes. -/
theorem execBresizez_eq_storeBytes (id : Byte) (n : Nat) (s : State) :
    execBresizez id n s = withWrite s id fun i b => storeBytes s i b (zeros n) .empty := by
  refine congrArg (withWrite s id) (funext₂ fun i b => ?_)
  cases he : ensure s.maxBytes b n <;> simp only [storeBytes, length_zeros, he]

/-- `BRESIZEZ` (rule R125) stores `n` zero bytes. -/
theorem exec_bresizez_eq_next {s t : State} {id : Byte} {n : Nat} :
    exec (.bresizez id n) s = .next t ↔ ∃ i b, ScratchHolds s id i b ∧
      storeBytes s i b (zeros n) .empty = .next t := by
  rw [exec, execBresizez_eq_storeBytes, withWrite_eq_next]

/-- `BDESTROY` (rule R126). -/
theorem exec_bdestroy_eq_next {s t : State} {id : Byte} :
    exec (.bdestroy id) s = .next t ↔ ∃ i b, ScratchHolds s id i b ∧
      t = (s.setSlot i none).respond (.ok .empty) := by
  simp only [exec, execBdestroy, withWrite_eq_next, finish_eq_next]

/-- `BREAD` (rule R127). -/
theorem exec_bread_eq_next {s t : State} {id : Byte} :
    exec (.bread id) s = .next t ↔ ∃ b, Readable s id b ∧ t = s.respond (.ok (.bytes b.len b.data)) := by
  simp only [exec, execBread, withRead_eq_next, finish_eq_next, Buf.memRead_all, Option.getD_some]

/-- `HEXDEC` (rule R141): the target is emptied, and then takes the decoded bytes where there are any. -/
theorem exec_hexdec_eq_next {s t : State} {id : Byte} {text : Bytes} (h : exec (.hexdec id text) s = .next t) :
    ∃ i b, ScratchHolds s id i b ∧
      ((decodeHex text = none ∧
          t = (s.setSlot i (some { cap := b.cap, data := [] })).respond (.error .malformedHexError)) ∨
        ∃ Y, decodeHex text = some Y ∧
          storeBytes (s.setSlot i (some { cap := b.cap, data := [] })) i { cap := b.cap, data := [] } Y .empty =
            .next t) := by
  rw [exec, execHexdec] at h
  obtain ⟨i, b, hb, hk⟩ := withWrite_eq_next.1 h
  refine ⟨i, b, hb, ?_⟩
  cases hd : decodeHex text with
  | none => simp only [hd] at hk; exact .inl ⟨rfl, raise_eq_next.1 hk⟩
  | some Y => simp only [hd] at hk; exact .inr ⟨Y, rfl, hk⟩

/-- `HEXREN` (rule R142). -/
theorem exec_hexren_eq_next {s t : State} {id : Byte} :
    exec (.hexren id) s = .next t ↔ ∃ b, Readable s id b ∧ t = s.respond (.ok (.text (renderHex b.data))) := by
  simp only [exec, execHexren, withRead_eq_next, finish_eq_next]

/-- `QUERY` (rule R205). -/
theorem exec_query_eq_next {s t : State} {r : Reg} :
    exec (.query r) s = .next t ↔ t = s.respond
      (.ok (.store (s.store r).numBits (s.store r).tdi.data (s.store r).tdo.data (s.store r).mask.data)) :=
  finish_eq_next

/-! ## What a command can do to the memory -/

/-- The three ways a command that answers leaves the state: only the response is given; one scratch slot is replaced, by no buffer or by
one that keeps rule R25; or one store is replaced by what a line makes of it (rule R29). -/
inductive Effect (s : State) : State → Prop where
  | respond (x : Response) : Effect s (s.respond x)
  | setSlot (i : Nat) (v : Option Buf) (x : Response)
      (hv : Memory.wf s → ∀ b, v = some b → Buf.wf s.maxBytes b) : Effect s ((s.setSlot i v).respond x)
  | setStore (r : Reg) (args : List Token) (new : BitStore) (x : Response)
      (hp : parseStore s.maxBytes (s.store r) args = .ok new) : Effect s ((s.setStore r new).respond x)

/-- A live scratch buffer of a well-formed memory keeps rule R25. -/
theorem Memory.wf_scratchHolds {s : State} {id : Byte} {i : Nat} {b : Buf} (h : Memory.wf s) (hb : ScratchHolds s id i b) :
    Buf.wf s.maxBytes b :=
  (Memory.wf_iff.1 h).2 i b hb.2

/-- Every buffer of a well-formed memory that can be read keeps rule R25. -/
theorem Memory.wf_readable {s : State} {id : Byte} {b : Buf} (h : Memory.wf s) (hb : Readable s id b) :
    Buf.wf s.maxBytes b := by
  obtain ⟨i, hi⟩ | ⟨r, f, -, rfl⟩ := hb
  · exact Memory.wf_scratchHolds h hi
  · exact ((Memory.wf_iff.1 h).1 r f).2

/-- Storing bytes replaces its slot by a buffer grown to hold them, or changes nothing. -/
theorem storeBytes_effect {s t : State} {id : Byte} {i : Nat} {b : Buf} {Y : Bytes} {res : Result}
    (hb : ScratchHolds s id i b) (h : storeBytes s i b Y res = .next t) : Effect s t := by
  obtain ⟨hf, e⟩ | ⟨-, e⟩ := storeBytes_cases s i b Y res <;> rw [e] at h <;> cases h
  · refine .setSlot i _ _ fun hwf b' hb' => ?_
    cases hb'
    exact Buf.wf_stored (Memory.wf_scratchHolds hwf hb) hf
  · exact .respond _

/-- `MERGE` and `CHAIN` replace their destination alone. -/
theorem mergeInto_effect {s x : State} {dst t l h : Byte} {tw lw hw : Nat}
    (hx : mergeInto dst t tw l lw h hw s = .next x) : Effect s x := by
  obtain ⟨i, d, bt, bl, bh, hd, -, -, -, -, -, hs⟩ := mergeInto_eq_next hx
  exact storeBytes_effect hd hs

/-- A live buffer emptied keeps rule R25. -/
theorem effect_emptied {s : State} {id : Byte} {i : Nat} {b : Buf} (hb : ScratchHolds s id i b) (x : Response) :
    Effect s ((s.setSlot i (some { cap := b.cap, data := [] })).respond x) := by
  refine .setSlot i _ x fun hwf b' hb' => ?_
  cases hb'
  exact Buf.wf_empty (Memory.wf_scratchHolds hwf hb)

/-- All that a command which answers can do to the memory. -/
theorem exec_effect {i : Instr} {s t : State} (h : exec i s = .next t) : Effect s t := by
  cases i using Instr.casesLine with
  | line r args =>
    rw [exec_lineInstr] at h
    obtain ⟨new, hp, e⟩ | ⟨k, -, e⟩ := execLine_cases r args s <;> rw [e] at h <;> cases h
    · exact .setStore r args new _ hp
    · exact .respond _
  | bcreate id n =>
    obtain ⟨i, -, ⟨hf, rfl⟩ | ⟨-, rfl⟩⟩ := exec_bcreate_eq_next h
    · refine .setSlot i _ _ fun _ b hb => ?_
      cases hb
      exact ⟨Nat.zero_le n, hf⟩
    · exact .respond _
  | breset id =>
    obtain ⟨i, b, hb, rfl⟩ := exec_breset_eq_next.1 h
    exact effect_emptied hb _
  | bappend id V =>
    obtain ⟨i, b, hb, hs⟩ := exec_bappend_eq_next.1 h
    exact storeBytes_effect hb hs
  | bresizez id n =>
    obtain ⟨i, b, hb, hs⟩ := exec_bresizez_eq_next.1 h
    exact storeBytes_effect hb hs
  | bdestroy id =>
    obtain ⟨i, b, -, rfl⟩ := exec_bdestroy_eq_next.1 h
    exact .setSlot i none _ (by simp)
  | bread id =>
    obtain ⟨b, -, rfl⟩ := exec_bread_eq_next.1 h
    exact .respond _
  | hexdec id text =>
    obtain ⟨i, b, hb, ⟨-, rfl⟩ | ⟨Y, -, hs⟩⟩ := exec_hexdec_eq_next h
    · exact effect_emptied hb _
    · obtain ⟨hf, e⟩ | ⟨-, e⟩ := storeBytes_cases _ i { cap := b.cap, data := [] } Y .empty <;>
        rw [e] at hs <;> cases hs
      · rw [State.setSlot_setSlot]
        refine .setSlot i _ _ fun hwf b' hb' => ?_
        cases hb'
        exact Buf.wf_stored (b := { cap := b.cap, data := [] }) (Buf.wf_empty (Memory.wf_scratchHolds hwf hb)) hf
      · exact effect_emptied hb _
  | hexren id =>
    obtain ⟨b, -, rfl⟩ := exec_hexren_eq_next.1 h
    exact .respond _
  | merge dst t tw l lw h' hw => exact mergeInto_effect h
  | chain dst sr f => exact mergeInto_effect h
  | query r =>
    obtain rfl := exec_query_eq_next.1 h
    exact .respond _

/-! ## The invariant -/

theorem Effect.maxBytes_eq {s t : State} (h : Effect s t) : t.maxBytes = s.maxBytes := by
  cases h <;> rfl

theorem Effect.nscratch_eq {s t : State} (h : Effect s t) : t.nscratch = s.nscratch := by
  cases h <;> simp

theorem Effect.wf {s t : State} (h : Effect s t) (hwf : Memory.wf s) : Memory.wf t := by
  cases h with
  | respond x => exact Memory.wf_respond.2 hwf
  | setSlot i v x hv =>
    cases v with
    | none => exact Memory.wf_respond.2 (Memory.wf_setSlot_none hwf)
    | some b => exact Memory.wf_respond.2 (Memory.wf_setSlot_some hwf (hv hwf b rfl))
  | setStore r args new x hp =>
    exact Memory.wf_respond.2 (Memory.wf_setStore hwf (BitStore.wf_parseStore ((Memory.wf_iff.1 hwf).1 r) hp))

/-- The parameters' ranges speak of nothing but the two parameters. -/
theorem ParamsInRange.congr {s t : State} (hn : t.nscratch = s.nscratch) (hm : t.maxBytes = s.maxBytes)
    (h : ParamsInRange s) : ParamsInRange t := by
  simpa only [ParamsInRange, hn, hm] using h

theorem Effect.inv {s t : State} (h : Effect s t) (hs : Inv s) : Inv t :=
  ⟨hs.1.congr h.nscratch_eq h.maxBytes_eq, h.wf hs.2⟩

theorem Inv.resetBlock {s : State} (h : Inv s) : Inv s.resetBlock :=
  ⟨h.1.congr (State.nscratch_resetBlock s) rfl, Memory.wf_resetBlock s⟩

theorem Inv.withScript {s : State} (h : Inv s) (evs : List HostEvent) : Inv (s.withScript evs) :=
  ⟨h.1.congr rfl rfl, Memory.wf_withScript.2 h.2⟩

/-- A packet that is not refused has the effect of a command, or of the error of a line that names none. -/
theorem runPacket_effect {p : Packet} {s t : State} (h : runPacket p s = .next t) : Effect s t := by
  unfold runPacket at h
  cases hd : decodePacket p with
  | instr i => simp only [hd] at h; exact exec_effect h
  | unknownLine =>
    simp only [hd] at h
    obtain rfl := raise_eq_next.1 h
    exact .respond _
  | reject w => simp only [hd] at h; cases h

theorem runEvent_inv {ev : HostEvent} {s t : State} (hs : Inv s) (h : runEvent ev s = .next t) : Inv t := by
  cases ev with
  | command p => exact (runPacket_effect h).inv hs
  | reset => cases h; exact hs.resetBlock

/-- Settles O45: a step is idle, the reset input, or a packet, whose effect keeps the memory well formed and the parameters as they are. -/
theorem stepKeepsInvariant : Obligations.StepKeepsInvariant := by
  unfold Obligations.StepKeepsInvariant
  intro s t hs h
  unfold step at h
  cases hscript : s.script with
  | nil => simp only [hscript] at h; cases h; exact hs
  | cons ev rest => simp only [hscript] at h; exact runEvent_inv (hs.withScript rest) h

/-! ## Command lines -/

/-- The kinds a line can raise (rule R230): those of its width, and those of its pairs. -/
theorem parseStore_error {maxBytes : Option Nat} {old : BitStore} {args : List Token} {k : ErrorKind}
    (h : parseStore maxBytes old args = .error k) : k ∈ lineKinds := by
  cases args with
  | nil => cases h; decide
  | cons w pairs =>
    simp only [parseStore] at h
    cases hd : decimal w with
    | none => simp only [hd] at h; cases h; decide
    | some n =>
      cases hw : widthStep maxBytes old n with
      | none => simp only [hd, hw] at h; cases h; decide
      | some new =>
        cases hp : pairsStep n pairs [] new with
        | ok new' => simp only [hd, hw, hp] at h; cases h
        | error e =>
          simp only [hd, hw, hp] at h
          cases h
          obtain rfl | rfl | rfl | rfl := pairsStep_error hp <;> decide

/-- A register command always answers, with ok or with a kind of its row of rule R230. -/
theorem exec_lineInstr_answers (r : Reg) (args : List Token) (s : State) :
    ∃ t, exec (lineInstr r args) s = .next t ∧
      (t.response = some (.ok .empty) ∨ ∃ k ∈ mayRaise (lineInstr r args), t.response = some (.error k)) := by
  rw [exec_lineInstr, mayRaise_lineInstr]
  obtain ⟨new, -, e⟩ | ⟨k, hp, e⟩ := execLine_cases r args s
  · exact ⟨_, e, .inl rfl⟩
  · exact ⟨_, e, .inr ⟨k, parseStore_error hp, rfl⟩⟩

/-- A `LINE` packet carries its text (rules R82, R94). -/
theorem decodePacket_line {text : Bytes} (h : text.length < 2 ^ 32) :
    decodePacket (0x30 :: encBlob text) = decodeLine text := by
  obtain ⟨a, b, c, d, he, hn⟩ := encNum32_spec h
  have hl : decodeL (a :: b :: c :: d :: text) = decodeLine text := by simp only [decodeL, hn, if_true]
  rw [encBlob, he]
  exact hl

/-- All that a line's text can be (rules R88, R96): a register command, or a line that names none. -/
theorem decodeLine_cases (text : Bytes) :
    (∃ r args, decodeLine text = .instr (lineInstr r args)) ∨ decodeLine text = .unknownLine := by
  unfold decodeLine
  cases tokens text with
  | nil => exact .inr rfl
  | cons t args =>
    cases hr : Reg.ofToken t with
    | none => exact .inr (by simp only [hr])
    | some r => exact .inl ⟨r, args, by simp only [hr]⟩

/-- Settles O41: a line that names a register command answers as the command does, and any other line answers `UnknownCommandError`. -/
theorem linesAreNeverRefused : Obligations.LinesAreNeverRefused := by
  unfold Obligations.LinesAreNeverRefused
  refine ⟨exec_lineInstr_answers, fun text s hlen => ?_⟩
  rw [runPacket, decodePacket_line hlen]
  obtain ⟨r, args, e⟩ | e := decodeLine_cases text <;> rw [e]
  · obtain ⟨t, ht, -⟩ := exec_lineInstr_answers r args s
    exact ⟨t, ht⟩
  · exact ⟨_, rfl⟩

/-! ## Responses -/

/-- Every command is refused or answers: there is no fault (rule R242). -/
theorem refused_or_next (o : Out) : (∃ r, o = .refused r) ∨ ∃ t, o = .next t := by
  cases o with
  | next t => exact .inr ⟨t, rfl⟩
  | fault r => cases r
  | refused r => exact .inl ⟨r, rfl⟩

/-- Storing bytes answers its result where the bytes fit, and an error otherwise. -/
theorem storeBytes_response {s t : State} {i : Nat} {b : Buf} {Y : Bytes} {res : Result}
    (h : storeBytes s i b Y res = .next t) :
    (fits s.maxBytes Y.length = true ∧ t.response = some (.ok res)) ∨ t.response = some (.error .allocationError) := by
  obtain ⟨hf, e⟩ | ⟨-, e⟩ := storeBytes_cases s i b Y res <;> rw [e] at h <;> cases h
  · exact .inl ⟨hf, rfl⟩
  · exact .inr rfl

/-- A response with an error status, or with a result of the shape rule R84 gives the command. -/
def AnswersInShape (i : Instr) (t : State) : Prop :=
  (∃ k, t.response = some (.error k)) ∨ ∃ res, t.response = some (.ok res) ∧ resultFits i res

theorem AnswersInShape.of_storeBytes {i : Instr} {s t : State} {j : Nat} {b : Buf} {Y : Bytes} {res : Result}
    (h : storeBytes s j b Y res = .next t) (hres : resultFits i res) : AnswersInShape i t :=
  (storeBytes_response h).elim (fun hok => .inr ⟨res, hok.2, hres⟩) (fun herr => .inl ⟨_, herr⟩)

/-- A merge that answers stored `pack` of its operands or raised `AllocationError`; where it is ok the total fits `MAXBYTES` (rule R161). -/
theorem mergeInto_response {s x : State} {dst t l h : Byte} {tw lw hw : Nat}
    (hx : mergeInto dst t tw l lw h hw s = .next x) :
    (fits s.maxBytes (ceil8 (tw + lw + hw)) = true ∧ x.response = some (.ok (.totalBits (tw + lw + hw)))) ∨
      x.response = some (.error .allocationError) := by
  obtain ⟨i, d, bt, bl, bh, -, -, -, -, -, -, hs⟩ := mergeInto_eq_next hx
  simpa only [length_packBytes, packTotal] using storeBytes_response hs

theorem AnswersInShape.of_mergeInto {i : Instr} {s x : State} {dst t l h : Byte} {tw lw hw : Nat}
    (hx : mergeInto dst t tw l lw h hw s = .next x) (hres : resultFits i (.totalBits (tw + lw + hw))) :
    AnswersInShape i x :=
  (mergeInto_response hx).elim (fun hok => .inr ⟨_, hok.2, hres⟩) (fun herr => .inl ⟨_, herr⟩)

/-- Every command that answers does so in the shape of its row of rule R84. -/
theorem exec_answersInShape {i : Instr} {s t : State} (h : exec i s = .next t) : AnswersInShape i t := by
  cases i using Instr.casesLine with
  | line r args =>
    obtain ⟨t', ht', hok | ⟨k, -, herr⟩⟩ := exec_lineInstr_answers r args s <;> cases h.symm.trans ht'
    · exact .inr ⟨_, hok, (resultFits_lineInstr ..).2 rfl⟩
    · exact .inl ⟨k, herr⟩
  | bcreate id n =>
    obtain ⟨i, -, ⟨-, rfl⟩ | ⟨-, rfl⟩⟩ := exec_bcreate_eq_next h
    · exact .inr ⟨_, rfl, rfl⟩
    · exact .inl ⟨_, rfl⟩
  | breset id =>
    obtain ⟨i, b, -, rfl⟩ := exec_breset_eq_next.1 h
    exact .inr ⟨_, rfl, rfl⟩
  | bappend id V =>
    obtain ⟨i, b, -, hs⟩ := exec_bappend_eq_next.1 h
    exact .of_storeBytes hs rfl
  | bresizez id n =>
    obtain ⟨i, b, -, hs⟩ := exec_bresizez_eq_next.1 h
    exact .of_storeBytes hs rfl
  | bdestroy id =>
    obtain ⟨i, b, -, rfl⟩ := exec_bdestroy_eq_next.1 h
    exact .inr ⟨_, rfl, rfl⟩
  | bread id =>
    obtain ⟨b, -, rfl⟩ := exec_bread_eq_next.1 h
    exact .inr ⟨_, rfl, _, _, rfl⟩
  | hexdec id text =>
    obtain ⟨i, b, -, ⟨-, rfl⟩ | ⟨Y, -, hs⟩⟩ := exec_hexdec_eq_next h
    · exact .inl ⟨_, rfl⟩
    · exact .of_storeBytes hs rfl
  | hexren id =>
    obtain ⟨b, -, rfl⟩ := exec_hexren_eq_next.1 h
    exact .inr ⟨_, rfl, _, rfl⟩
  | merge dst t tw l lw h' hw => exact .of_mergeInto h ⟨_, rfl⟩
  | chain dst sr f => exact .of_mergeInto h ⟨_, rfl⟩
  | query r =>
    obtain rfl := exec_query_eq_next.1 h
    exact .inr ⟨_, rfl, _, _, _, _, rfl⟩

/-- Settles O54: no command faults, and one that answers does so in its shape. -/
theorem everyCommandAnswers : Obligations.EveryCommandAnswers := by
  unfold Obligations.EveryCommandAnswers
  intro i s
  obtain hr | ⟨t, ht⟩ := refused_or_next (exec i s)
  · exact .inl hr
  · exact .inr ⟨t, ht, exec_answersInShape ht⟩

/-! ## The size of a response -/

theorem fitsNum32_eq_true {n : Nat} : fitsNum32 n = true ↔ n < 2 ^ 32 := decide_eq_true_iff

/-- A result returned with status ok has the shape of its command's row of rule R84. -/
theorem resultFits_of_exec {i : Instr} {s t : State} {res : Result} (h : exec i s = .next t)
    (hr : t.response = some (.ok res)) : resultFits i res := by
  obtain ⟨k, hk⟩ | ⟨res', hres', hfits⟩ := exec_answersInShape h
  · cases hk.symm.trans hr
  · cases hres'.symm.trans hr
    exact hfits

@[simp] theorem length_renderHex (X : Bytes) : (renderHex X).length = 2 * X.length := by
  simp [renderHex, List.length_flatMap, Nat.mul_comm]

section
variable {s t : State} {m : Nat}

/-- A finite `MAXBYTES` is below `2^29` (rule R6). -/
theorem Inv.maxBytes_lt (hs : Inv s) (hm : s.maxBytes = some m) : m < 2 ^ 29 := by
  obtain ⟨⟨-, -, hmax⟩, -⟩ := hs
  exact (hmax m hm).2

theorem fits_some {n : Nat} : fits (some m) n = true ↔ n ≤ m := decide_eq_true_iff

theorem Buf.wf_len_le {b : Buf} (h : Buf.wf (some m) b) : b.data.length ≤ m := h.1.trans (fits_some.1 h.2)

/-- A total that a merge returns is at most eight times `MAXBYTES`, since `pack` was stored (rule R161). -/
theorem fitsPacket_of_mergeInto {dst tl l h : Byte} {tw lw hw : Nat} {res : Result} (hs : Inv s)
    (hm : s.maxBytes = some m) (hx : mergeInto dst tl tw l lw h hw s = .next t) (hr : t.response = some (.ok res)) :
    res.fitsPacket = true := by
  obtain ⟨hf, hok⟩ | herr := mergeInto_response hx
  · cases hok.symm.trans hr
    have hm29 := hs.maxBytes_lt hm
    rw [hm, fits_some] at hf
    have htotal := le_eight_mul_ceil8 (tw + lw + hw)
    exact fitsNum32_eq_true.2 (by omega)
  · cases herr.symm.trans hr

/-- The parts of a store fit: its fields have `ceil8` of its width in bytes, at most `MAXBYTES` (rules R22, R25). -/
theorem fitsPacket_store (hs : Inv s) (hm : s.maxBytes = some m) (r : Reg) :
    (Result.store (s.store r).numBits (s.store r).tdi.data (s.store r).tdo.data (s.store r).mask.data).fitsPacket = true := by
  have hm29 := hs.maxBytes_lt hm
  have hfield : ∀ f, ((s.store r).field f).data.length = ceil8 (s.store r).numBits ∧
      ((s.store r).field f).data.length ≤ m := fun f => by
    obtain ⟨hlen, hwf⟩ := (Memory.wf_iff.1 hs.2).1 r f
    rw [hm] at hwf
    exact ⟨hlen, Buf.wf_len_le hwf⟩
  obtain ⟨hlen, htdi⟩ := hfield .tdi
  obtain ⟨-, htdo⟩ := hfield .tdo
  obtain ⟨-, hmask⟩ := hfield .mask
  have hwidth := le_eight_mul_ceil8 (s.store r).numBits
  simp only [BitStore.field] at hlen htdi htdo hmask
  simp only [Result.fitsPacket, Bool.and_eq_true, fitsNum32_eq_true]
  omega

/-- Every number and blob length that a command returns fits its field (rule R84). -/
theorem fitsPacket_of_exec {i : Instr} {res : Result} (hs : Inv s) (hm : s.maxBytes = some m)
    (h : exec i s = .next t) (hr : t.response = some (.ok res)) : res.fitsPacket = true := by
  have hm29 := hs.maxBytes_lt hm
  have hread : ∀ {id b}, Readable s id b → b.data.length ≤ m := fun hb =>
    Buf.wf_len_le (hm ▸ Memory.wf_readable hs.2 hb)
  cases i using Instr.casesLine with
  | line r args =>
    obtain rfl := (resultFits_lineInstr r args res).1 (resultFits_of_exec h hr)
    rfl
  | bcreate | breset | bappend | bresizez | bdestroy | hexdec =>
    cases resultFits_of_exec h hr
    rfl
  | bread id =>
    obtain ⟨b, hb, rfl⟩ := exec_bread_eq_next.1 h
    cases hr
    have hlen := hread hb
    simp only [Result.fitsPacket, Buf.len, Bool.and_eq_true, fitsNum32_eq_true, decide_true, and_true]
    omega
  | hexren id =>
    obtain ⟨b, hb, rfl⟩ := exec_hexren_eq_next.1 h
    cases hr
    have hlen := hread hb
    simp only [Result.fitsPacket, length_renderHex, fitsNum32_eq_true]
    omega
  | merge dst t' tw l lw h' hw => exact fitsPacket_of_mergeInto hs hm h hr
  | chain dst sr f => exact fitsPacket_of_mergeInto hs hm h hr
  | query r =>
    obtain rfl := exec_query_eq_next.1 h
    cases hr
    exact fitsPacket_store hs hm r

end

/-- Settles O56: each row of the response table is bounded by `MAXBYTES`, and a result that fits has its packet. -/
theorem responseNumbersFitTheirFields : Obligations.ResponseNumbersFitTheirFields := by
  unfold Obligations.ResponseNumbersFitTheirFields
  intro i s t m res hs hm h hr
  have hfit := fitsPacket_of_exec hs hm h hr
  have hmt : t.maxBytes = some m := (exec_effect h).maxBytes_eq.trans hm
  exact ⟨hfit, by simp [State.responsePacket, hmt, hr, Response.packet, hfit]⟩

/-! ## The step -/

/-- A packet that decodes to an instruction runs it (rule R5). -/
theorem runPacket_of_decode {p : Packet} {i : Instr} (h : decodePacket p = .instr i) (s : State) :
    runPacket p s = exec i s := by
  simp only [runPacket, h]

/-- Settles O9: the step takes the packet from the script and runs what it decodes to. -/
theorem stepRunsTheDecodedInstruction : Obligations.StepRunsTheDecodedInstruction := by
  unfold Obligations.StepRunsTheDecodedInstruction
  intro s p rest i hscript hdecode
  rw [step, hscript]
  exact runPacket_of_decode hdecode _

end Sys2Proof.Machine

/-! # The statements of 10_state.md: reset, the buffer ids, what a command writes, capacities, and several instances -/

namespace Sys2Proof.Machine

/-! ## Buffer ids -/

/-- An id names a store buffer exactly where rule R30 puts it. -/
theorem bufRef_eq_store {n : Nat} {id : Byte} {r : Reg} {f : Field} :
    bufRef n id = some (.store r f) ↔ id.toNat = 3 * r.index + f.index := by
  refine ⟨fun h => ?_, bufRef_store⟩
  obtain ⟨r', f', hid, hb⟩ | ⟨i, -, -, hb⟩ | ⟨-, hb⟩ := bufRef_cases n id <;> rw [hb] at h <;> cases h
  exact hid

/-- An id names a scratch buffer exactly where rule R30 puts it. -/
theorem bufRef_eq_scratch {n i : Nat} {id : Byte} :
    bufRef n id = some (.scratch i) ↔ id.toNat = 0x80 + i ∧ i < n := by
  refine ⟨fun h => ?_, fun h => bufRef_scratch h.1 h.2⟩
  obtain ⟨r, f, -, hb⟩ | ⟨j, hid, hj, hb⟩ | ⟨-, hb⟩ := bufRef_cases n id <;> rw [hb] at h <;> cases h
  exact ⟨hid, hj⟩

/-- An id names nothing exactly outside the ranges of rule R30. -/
theorem bufRef_eq_none {n : Nat} {id : Byte} :
    bufRef n id = none ↔ (0x12 ≤ id.toNat ∧ id.toNat < 0x80) ∨ 0x80 + n ≤ id.toNat := by
  refine ⟨fun h => ?_, bufRef_none⟩
  obtain ⟨r, f, -, hb⟩ | ⟨i, -, -, hb⟩ | ⟨hid, hb⟩ := bufRef_cases n id <;> rw [hb] at h <;> cases h
  exact hid

/-- Settles O13: the map read both ways, from the one case split of `bufRef_cases`. -/
theorem bufferIdMap : Obligations.BufferIdMap := by
  unfold Obligations.BufferIdMap
  exact ⟨fun r f => ⟨toNat_storeId r f, fun _ => bufRef_store (toNat_storeId r f)⟩,
    fun _ _ _ => bufRef_eq_scratch, fun _ _ => bufRef_eq_none, rfl, rfl⟩

/-- What an id names determines the id. -/
theorem bufRef_injective {n : Nat} {id id' : Byte} {x : BufRef} (h : bufRef n id = some x) (h' : bufRef n id' = some x) :
    id = id' := by
  apply BitVec.eq_of_toNat_eq
  cases x with
  | store r f => exact (bufRef_eq_store.1 h).trans (bufRef_eq_store.1 h').symm
  | scratch i => exact (bufRef_eq_scratch.1 h).1.trans (bufRef_eq_scratch.1 h').1.symm

/-- Replacing a slot changes no byte at any other id. -/
theorem State.readByte_setSlot_of_ne (s : State) {i : Nat} (v : Option Buf) {id : Byte} (h : id.toNat ≠ 0x80 + i) (off : Nat) :
    (s.setSlot i v).readByte id off = s.readByte id off := by
  refine State.readByte_congr (State.nscratch_setSlot s i v) (fun r f _ => rfl) (fun j hj => ?_) off
  have hji : j ≠ i := by rintro rfl; exact h hj
  exact State.slot_setSlot_of_ne s v hji

/-- Settles O14: an id can be recovered from what it names, and a slot is read through its own id alone. -/
theorem buffersAreNotShared : Obligations.BuffersAreNotShared := by
  unfold Obligations.BuffersAreNotShared
  exact ⟨fun _ _ _ _ => bufRef_injective, fun s _ v _ h => State.readByte_setSlot_of_ne s v h⟩

/-! ## Which location a command writes -/

/-- The three ways command `i` leaves the state where it answers, by the location it writes (rule R29): none, so that only the response
is given; the slot whose id the command carries, where a buffer that stays live keeps its capacity (rule R25); or the store its line names.
`Effect` says what is put there, `Write` says where. -/
inductive Write (i : Instr) (s : State) : State → Prop where
  | respond (x : Response) : Write i s (s.respond x)
  | setSlot {id : Byte} {j : Nat} {v : Option Buf} (x : Response) (hi : writtenBuffer i = some id)
      (hid : id.toNat = 0x80 + j) (hcap : ∀ b b', s.slot j = some b → v = some b' → b.cap ≤ b'.cap) :
      Write i s ((s.setSlot j v).respond x)
  | setStore {r : Reg} {args : List Token} {new : BitStore} (x : Response) (hi : i = lineInstr r args)
      (hp : parseStore s.maxBytes (s.store r) args = .ok new) : Write i s ((s.setStore r new).respond x)

@[simp] theorem writtenBuffer_lineInstr (r : Reg) (args : List Token) : writtenBuffer (lineInstr r args) = none := by
  cases r <;> rfl

section
variable {i : Instr} {s t : State} {id : Byte} {j : Nat} {b : Buf}

/-- Replacing the live buffer of the written slot by one of no lower capacity. -/
theorem Write.of_holds {b' : Buf} {x : Response} (hi : writtenBuffer i = some id) (hb : ScratchHolds s id j b)
    (hle : b.cap ≤ b'.cap) : Write i s ((s.setSlot j (some b')).respond x) := by
  refine .setSlot x hi hb.1 fun c c' hc hc' => ?_
  rw [hb.2] at hc
  cases hc
  cases hc'
  exact hle

/-- Storing bytes writes the slot it is given, or nothing. -/
theorem Write.of_storeBytes {Y : Bytes} {res : Result} (hi : writtenBuffer i = some id) (hb : ScratchHolds s id j b)
    (h : storeBytes s j b Y res = .next t) : Write i s t := by
  obtain ⟨-, e⟩ | ⟨-, e⟩ := storeBytes_cases s j b Y res <;> rw [e] at h <;> cases h
  · exact .of_holds hi hb (Nat.le_max_left _ _)
  · exact .respond _

/-- `MERGE` and `CHAIN` write their destination, or nothing. -/
theorem Write.of_mergeInto {tl l h : Byte} {tw lw hw : Nat} (hi : writtenBuffer i = some id)
    (ht : mergeInto id tl tw l lw h hw s = .next t) : Write i s t := by
  obtain ⟨_, d, bt, bl, bh, hd, -, -, -, -, -, hs⟩ := mergeInto_eq_next ht
  exact .of_storeBytes hi hd hs

/-- All that a command which answers can write. -/
theorem exec_write (h : exec i s = .next t) : Write i s t := by
  cases i using Instr.casesLine with
  | line r args =>
    rw [exec_lineInstr] at h
    obtain ⟨new, hp, e⟩ | ⟨k, -, e⟩ := execLine_cases r args s <;> rw [e] at h <;> cases h
    · exact .setStore _ rfl hp
    · exact .respond _
  | bcreate id n =>
    obtain ⟨i, ⟨hid, -, hfree⟩, ⟨-, rfl⟩ | ⟨-, rfl⟩⟩ := exec_bcreate_eq_next h
    · exact .setSlot _ rfl hid (by simp [hfree])
    · exact .respond _
  | breset id =>
    obtain ⟨i, b, hb, rfl⟩ := exec_breset_eq_next.1 h
    exact .of_holds rfl hb le_rfl
  | bappend id V =>
    obtain ⟨i, b, hb, hs⟩ := exec_bappend_eq_next.1 h
    exact .of_storeBytes rfl hb hs
  | bresizez id n =>
    obtain ⟨i, b, hb, hs⟩ := exec_bresizez_eq_next.1 h
    exact .of_storeBytes rfl hb hs
  | bdestroy id =>
    obtain ⟨i, b, hb, rfl⟩ := exec_bdestroy_eq_next.1 h
    exact .setSlot _ rfl hb.1 (by simp)
  | bread id =>
    obtain ⟨b, -, rfl⟩ := exec_bread_eq_next.1 h
    exact .respond _
  | hexdec id text =>
    obtain ⟨i, b, hb, ⟨-, rfl⟩ | ⟨Y, -, hs⟩⟩ := exec_hexdec_eq_next h
    · exact .of_holds rfl hb le_rfl
    · obtain ⟨-, e⟩ | ⟨-, e⟩ := storeBytes_cases _ i { cap := b.cap, data := [] } Y .empty <;>
        rw [e] at hs <;> cases hs
      · rw [State.setSlot_setSlot]
        exact .of_holds rfl hb (Nat.le_max_left _ _)
      · exact .of_holds rfl hb le_rfl
  | hexren id =>
    obtain ⟨b, -, rfl⟩ := exec_hexren_eq_next.1 h
    exact .respond _
  | merge dst t tw l lw h' hw => exact .of_mergeInto rfl h
  | chain dst sr f => exact .of_mergeInto rfl h
  | query r =>
    obtain rfl := exec_query_eq_next.1 h
    exact .respond _

end

/-- Settles O49: a command that carries an id to write replaces that id's slot or nothing. -/
theorem bufferWritersFrame : Obligations.BufferWritersFrame := by
  unfold Obligations.BufferWritersFrame
  intro i id s t hi h
  cases exec_write h with
  | respond x => exact ⟨rfl, rfl, rfl, rfl, fun _ _ => rfl, fun _ _ _ => rfl⟩
  | @setSlot id' j v x hi' hid hcap =>
    obtain rfl : id' = id := Option.some.inj (hi'.symm.trans hi)
    refine ⟨rfl, rfl, rfl, State.nscratch_setSlot s j v, fun k hk => ?_, fun other off hne => ?_⟩
    · have hkj : k ≠ j := by rintro rfl; exact hk hid
      exact State.slot_setSlot_of_ne s v hkj
    · have hother : other.toNat ≠ 0x80 + j := fun e => hne (BitVec.eq_of_toNat_eq (e.trans hid.symm))
      exact State.readByte_setSlot_of_ne s v hother off
  | setStore x hi' hp => simp [hi'] at hi

/-! ## Capacities -/

/-- Rule R25 between two states: every buffer that is live in both has at least its old capacity in the second. -/
def CapsKept (s t : State) : Prop :=
  (∀ r f, ((s.store r).field f).cap ≤ ((t.store r).field f).cap) ∧
    ∀ i b b', s.slot i = some b → t.slot i = some b' → b.cap ≤ b'.cap

theorem CapsKept.refl (s : State) : CapsKept s s :=
  ⟨fun _ _ => le_rfl, fun _ b b' hb hb' => by obtain rfl := Option.some.inj (hb.symm.trans hb'); rfl⟩

theorem CapsKept.setSlot {s : State} {j : Nat} {v : Option Buf}
    (hcap : ∀ b b', s.slot j = some b → v = some b' → b.cap ≤ b'.cap) : CapsKept s (s.setSlot j v) := by
  refine ⟨fun _ _ => le_rfl, fun i b b' hb hb' => ?_⟩
  by_cases hij : i = j
  · subst hij
    rw [State.slot_setSlot_self s v (State.lt_of_slot hb)] at hb'
    exact hcap b b' hb hb'
  · rw [State.slot_setSlot_of_ne s v hij] at hb'
    exact (CapsKept.refl s).2 i b b' hb hb'

/-- A line raises the capacities of its store (rule R196). -/
theorem CapsKept.setStore {s : State} {r : Reg} {args : List Token} {new : BitStore}
    (hp : parseStore s.maxBytes (s.store r) args = .ok new) : CapsKept s (s.setStore r new) := by
  refine ⟨fun r' f => ?_, (CapsKept.refl s).2⟩
  by_cases hr : r' = r
  · subst hr
    rw [State.store_setStore_self, ((parseStore_ok hp).2 f).1]
    exact Nat.le_max_left _ _
  · rw [State.store_setStore_of_ne s new hr]

theorem Write.capsKept {i : Instr} {s t : State} (h : Write i s t) : CapsKept s t := by
  cases h with
  | respond x => exact CapsKept.refl s
  | setSlot x _ _ hcap => exact CapsKept.setSlot hcap
  | setStore x _ hp => exact CapsKept.setStore hp

/-- A packet that is not refused is answered by its instruction, or, where it names none, with `UnknownCommandError` alone. -/
theorem runPacket_cases {p : Packet} {s t : State} (h : runPacket p s = .next t) :
    (∃ i, decodePacket p = .instr i ∧ exec i s = .next t) ∨
      (decodePacket p = .unknownLine ∧ t = s.respond (.error .unknownCommandError)) := by
  unfold runPacket at h
  cases hd : decodePacket p with
  | instr i => simp only [hd] at h; exact .inl ⟨i, rfl, h⟩
  | unknownLine => simp only [hd] at h; exact .inr ⟨rfl, raise_eq_next.1 h⟩
  | reject w => simp only [hd] at h; cases h

theorem runPacket_capsKept {p : Packet} {s t : State} (h : runPacket p s = .next t) : CapsKept s t := by
  obtain ⟨i, -, hi⟩ | ⟨-, rfl⟩ := runPacket_cases h
  · exact (exec_write hi).capsKept
  · exact CapsKept.refl s

/-- With nothing to come from the host a step is idle. -/
theorem step_of_nil {s : State} (h : s.script = []) : step s = .next s := by
  simp only [step, h]

/-- A step takes the host's next event from the script and runs it. -/
theorem step_of_cons {s : State} {ev : HostEvent} {rest : List HostEvent} (h : s.script = ev :: rest) :
    step s = runEvent ev (s.withScript rest) := by
  simp only [step, h]

/-- Settles O47: a step that is no reset is idle or a packet, and whatever a command writes keeps the capacities. -/
theorem capacityNeverShrinks : Obligations.CapacityNeverShrinks := by
  unfold Obligations.CapacityNeverShrinks
  intro s t hreset h
  cases hs : s.script with
  | nil =>
    rw [step_of_nil hs] at h
    cases h
    exact CapsKept.refl s
  | cons ev rest =>
    rw [step_of_cons hs] at h
    cases ev with
    | command p => exact runPacket_capsKept (s := s.withScript rest) h
    | reset => exact absurd hs (hreset rest)

/-! ## Several instances -/

section
variable {k : Nat} {ms a : List State}

/-- Where there is no copy `k` of the block, its step changes nothing (rule R245). -/
theorem stepInstance_of_none (h : ms[k]? = none) : stepInstance k ms = .next ms := by
  simp only [stepInstance, h]

/-- The step of a copy replaces that copy alone. -/
theorem stepInstance_of_some {m m' : State} (h : ms[k]? = some m) (hm : step m = .next m') :
    stepInstance k ms = .next (ms.set k m') := by
  simp only [stepInstance, h, hm]

/-- All that a step of one copy can do where it answers. -/
theorem stepInstance_cases (h : stepInstance k ms = .next a) :
    (ms[k]? = none ∧ a = ms) ∨ ∃ m m', ms[k]? = some m ∧ step m = .next m' ∧ a = ms.set k m' := by
  unfold stepInstance at h
  cases hk : ms[k]? with
  | none => simp only [hk] at h; cases h; exact .inl ⟨rfl, rfl⟩
  | some m =>
    cases hm : step m with
    | next m' => simp only [hk, hm] at h; cases h; exact .inr ⟨m, m', rfl, hm, rfl⟩
    | fault r => simp only [hk, hm] at h; cases h
    | refused r => simp only [hk, hm] at h; cases h

/-- A step of one copy leaves every other as it is (rule R245). -/
theorem stepInstance_frame {j : Nat} (h : stepInstance k ms = .next a) (hjk : j ≠ k) : a[j]? = ms[j]? := by
  obtain ⟨-, rfl⟩ | ⟨m, m', -, -, rfl⟩ := stepInstance_cases h
  · rfl
  · exact List.getElem?_set_ne hjk.symm

/-- Steps of different copies commute: neither changes what the other starts from. -/
theorem stepInstance_comm {j : Nat} {b : List State} (hjk : j ≠ k) (ha : stepInstance j ms = .next a)
    (hb : stepInstance k a = .next b) : ∃ a', stepInstance k ms = .next a' ∧ stepInstance j a' = .next b := by
  have hk : a[k]? = ms[k]? := stepInstance_frame ha hjk.symm
  obtain ⟨hn, rfl⟩ | ⟨m, m', hm, hstep, rfl⟩ := stepInstance_cases hb
  · exact ⟨ms, stepInstance_of_none (hk ▸ hn), ha⟩
  · have hks : stepInstance k ms = .next (ms.set k m') := stepInstance_of_some (hk ▸ hm) hstep
    have hj : (ms.set k m')[j]? = ms[j]? := stepInstance_frame hks hjk
    refine ⟨_, hks, ?_⟩
    obtain ⟨hn, rfl⟩ | ⟨q, q', hq, hqstep, rfl⟩ := stepInstance_cases ha
    · exact stepInstance_of_none (hj.trans hn)
    · rw [List.set_comm _ _ hjk]
      exact stepInstance_of_some (hj.trans hq) hqstep

end

/-- Settles O58: the two steps commute, and each leaves the other's copy alone. -/
theorem instancesAreIndependent : Obligations.InstancesAreIndependent := by
  unfold Obligations.InstancesAreIndependent
  intro j k ms a b hjk ha hb
  obtain ⟨a', hk, hj⟩ := stepInstance_comm hjk ha hb
  exact ⟨a', hk, hj, stepInstance_frame hk hjk, stepInstance_frame ha hjk.symm⟩

/-! ## Reset -/

@[simp] theorem BitStore.field_atReset (f : Field) : BitStore.atReset.field f = Buf.atReset := by
  cases f <;> rfl

/-- The state after reset is one that the reset input leaves as it is, so what holds after the reset input holds of it. -/
theorem State.resetBlock_reset : State.reset.resetBlock = State.reset := rfl

@[simp] theorem State.store_reset (r : Reg) : State.reset.store r = BitStore.atReset :=
  State.store_resetBlock State.reset r

@[simp] theorem State.slot_reset (i : Nat) : State.reset.slot i = none :=
  State.slot_resetBlock State.reset i

/-- Settles O11: rule R35's values, store by store and slot by slot. -/
theorem resetValuesAreZero : Obligations.ResetValuesAreZero := by
  unfold Obligations.ResetValuesAreZero
  refine ⟨fun r f => ?_, State.slot_reset⟩
  rw [State.store_reset, BitStore.field_atReset]
  exact ⟨rfl, rfl, rfl, rfl⟩

/-- Settles O12: the step takes the reset input and leaves the block reset. -/
theorem resetInputClearsTheBlock : Obligations.ResetInputClearsTheBlock := by
  unfold Obligations.ResetInputClearsTheBlock
  intro s rest hs
  refine ⟨(s.withScript rest).resetBlock, step_of_cons hs, fun r f => ?_, State.slot_resetBlock _,
    State.nscratch_resetBlock _, rfl, rfl, rfl⟩
  rw [State.store_resetBlock, BitStore.field_atReset]
  exact ⟨rfl, rfl⟩

/-- The parameters at reset are in the ranges of rule R6. -/
theorem paramsInRange_reset : ParamsInRange State.reset := by
  refine ⟨by decide, by decide, fun m hm => ?_⟩
  obtain rfl : 2 ^ 29 - 1 = m := Option.some.inj hm
  decide

/-- Settles O46: parameters in range, and a well-formed memory. -/
theorem resetMeetsInvariant : Obligations.ResetMeetsInvariant :=
  ⟨paramsInRange_reset, Memory.wf_reset⟩

end Sys2Proof.Machine

/-! # The statements of 20_memory.md: the memory primitives -/

namespace Sys2Proof.Machine

section
variable {b b' : Buf} {off n k : Nat} {v X : Bytes}

/-- A read answers the bytes at its location, where they all lie below the length (rule R52). -/
theorem Buf.memRead_eq_some : b.memRead off n = some X ↔ off + n ≤ b.len ∧ (b.data.drop off).take n = X := by
  simp [Buf.memRead]

@[simp] theorem Buf.memRead_isSome : (b.memRead off n).isSome = true ↔ off + n ≤ b.len := by
  simp [Buf.memRead, apply_ite Option.isSome]

/-- A write puts its bytes between those before and those after them, where they all lie below the length (rule R52). -/
theorem Buf.memWrite_eq_some :
    b.memWrite off v = some b' ↔
      off + v.length ≤ b.len ∧ b.withData (b.data.take off ++ v ++ b.data.drop (off + v.length)) = b' := by
  simp [Buf.memWrite]

@[simp] theorem Buf.memWrite_isSome : (b.memWrite off v).isSome = true ↔ off + v.length ≤ b.len := by
  simp [Buf.memWrite, apply_ite Option.isSome]

theorem Buf.length_of_memRead (h : b.memRead off n = some X) : X.length = n := by
  obtain ⟨hle, rfl⟩ := Buf.memRead_eq_some.1 h
  have hn : n ≤ b.data.length - off := Nat.le_sub_of_add_le' hle
  rw [List.length_take, List.length_drop, Nat.min_eq_left hn]

theorem Buf.getElem?_of_memRead (h : b.memRead off n = some X) (hk : k < n) : X[k]? = b.data[off + k]? := by
  obtain ⟨-, rfl⟩ := Buf.memRead_eq_some.1 h
  rw [List.getElem?_take_of_lt hk, List.getElem?_drop]

/-- What was written is read back: the write keeps the length, and exactly `off` bytes stand before `v`. -/
theorem Buf.memRead_of_memWrite (h : b.memWrite off v = some b') : b'.memRead off v.length = some v := by
  obtain ⟨hlen, -⟩ := Buf.memWrite_shape h
  obtain ⟨hle, rfl⟩ := Buf.memWrite_eq_some.1 h
  have hoff : (b.data.take off).length = off := List.length_take_of_le (Nat.le_of_add_right_le hle)
  refine Buf.memRead_eq_some.2 ⟨hlen ▸ hle, ?_⟩
  rw [Buf.withData, List.append_assoc, List.drop_left' hoff, List.take_left]

/-- A write leaves every byte outside its location as it was. -/
theorem Buf.getElem?_outside_memWrite (h : b.memWrite off v = some b') (hk : k < off ∨ off + v.length ≤ k) :
    b'.data[k]? = b.data[k]? := by
  obtain ⟨hle, rfl⟩ := Buf.memWrite_eq_some.1 h
  have hoff : (b.data.take off).length = off := List.length_take_of_le (Nat.le_of_add_right_le hle)
  rw [Buf.withData]
  obtain hbefore | hafter := hk
  · rw [List.append_assoc, List.getElem?_append_left (hoff.symm ▸ hbefore), List.getElem?_take_of_lt hbefore]
  · have hpre : (b.data.take off ++ v).length = off + v.length := by rw [List.length_append, hoff]
    rw [List.getElem?_append_right (hpre.symm ▸ hafter), hpre, List.getElem?_drop, Nat.add_sub_cancel' hafter]

end

/-- Settles O17: definedness of each primitive, what a read gives, and what a write keeps, reads back and leaves alone. -/
theorem memoryPrimitives : Obligations.MemoryPrimitives := by
  unfold Obligations.MemoryPrimitives
  intro b
  refine ⟨fun _ _ => Buf.memRead_isSome, fun off n X h => ?_, fun _ _ => Buf.memWrite_isSome, fun off v b' h => ?_⟩
  · exact ⟨Buf.length_of_memRead h, fun _ => Buf.getElem?_of_memRead h⟩
  · obtain ⟨hlen, hcap⟩ := Buf.memWrite_shape h
    exact ⟨hlen, hcap, Buf.memRead_of_memWrite h, fun _ => Buf.getElem?_outside_memWrite h⟩

end Sys2Proof.Machine

/-! # The statements of 30_encoding.md: packets and their fields, the tokens of a line, and the lines that raise an error -/

namespace Sys2Proof

/-! ## Tokens of a line (rule R87) -/

theorem isWs_iff {c : Byte} : isWs c = true ↔ c ∈ Config.whitespace := List.contains_iff_mem

theorem tokenOk_iff {t : Token} : tokenOk t = true ↔ t ≠ [] ∧ ∀ c ∈ t, isWs c = false := by
  simp [tokenOk]

@[simp] theorem pushToken_nil (rest : List Token) : pushToken [] rest = rest := rfl

theorem pushToken_of_ne_nil {t : Token} (h : t ≠ []) (rest : List Token) : pushToken t rest = t :: rest := by
  simp [pushToken, h]

theorem pushToken_append (t : Token) (rest more : List Token) : pushToken t (rest ++ more) = pushToken t rest ++ more := by
  by_cases h : t = []
  · simp [h]
  · simp [pushToken_of_ne_nil h]

theorem splitToken_cons_ws {c : Byte} (h : isWs c = true) (cs : Bytes) : splitToken (c :: cs) = ([], tokens cs) := by
  simp [splitToken, tokens, h]

theorem splitToken_cons_not_ws {c : Byte} (h : isWs c = false) (cs : Bytes) :
    splitToken (c :: cs) = (c :: (splitToken cs).1, (splitToken cs).2) := by
  simp [splitToken, h]

/-- Whitespace ends the tokens of what stands before it; the first run is one of those. -/
theorem splitToken_append_ws {c : Byte} (h : isWs c = true) (x y : Bytes) :
    splitToken (x ++ c :: y) = ((splitToken x).1, (splitToken x).2 ++ tokens y) := by
  induction x with
  | nil => exact splitToken_cons_ws h y
  | cons a x ih =>
    rw [List.cons_append]
    cases ha : isWs a
    · rw [splitToken_cons_not_ws ha, splitToken_cons_not_ws ha, ih]
    · rw [splitToken_cons_ws ha, splitToken_cons_ws ha, tokens, ih, pushToken_append]
      rfl

theorem tokens_append_ws {c : Byte} (h : isWs c = true) (x y : Bytes) : tokens (x ++ c :: y) = tokens x ++ tokens y := by
  rw [tokens, splitToken_append_ws h, pushToken_append]
  rfl

theorem splitToken_of_not_ws {t : Token} (h : ∀ c ∈ t, isWs c = false) : splitToken t = (t, []) := by
  induction t with
  | nil => rfl
  | cons c t ih =>
    obtain ⟨hc, ht⟩ := List.forall_mem_cons.1 h
    rw [splitToken_cons_not_ws hc, ih ht]

theorem tokens_of_tokenOk {t : Token} (h : tokenOk t = true) : tokens t = [t] := by
  obtain ⟨hne, hws⟩ := tokenOk_iff.1 h
  rw [tokens, splitToken_of_not_ws hws, pushToken_of_ne_nil hne]

theorem tokenOk_of_mem_pushToken {t cur : Token} {rest : List Token} (hcur : ∀ c ∈ cur, isWs c = false)
    (hrest : ∀ t ∈ rest, tokenOk t = true) (h : t ∈ pushToken cur rest) : tokenOk t = true := by
  by_cases hne : cur = []
  · subst hne
    exact hrest t h
  · rw [pushToken_of_ne_nil hne] at h
    obtain rfl | h := List.mem_cons.1 h
    · exact tokenOk_iff.2 ⟨hne, hcur⟩
    · exact hrest t h

/-- The first run holds no whitespace, and the tokens after it are tokens. -/
theorem splitToken_tokenOk (text : Bytes) :
    (∀ c ∈ (splitToken text).1, isWs c = false) ∧ ∀ t ∈ (splitToken text).2, tokenOk t = true := by
  induction text with
  | nil => simp [splitToken]
  | cons c cs ih =>
    obtain ⟨hcur, hrest⟩ := ih
    cases hc : isWs c
    · rw [splitToken_cons_not_ws hc]
      exact ⟨List.forall_mem_cons.2 ⟨hc, hcur⟩, hrest⟩
    · rw [splitToken_cons_ws hc]
      exact ⟨by simp, fun t ht => tokenOk_of_mem_pushToken hcur hrest ht⟩

theorem tokenOk_of_mem_tokens {text : Bytes} {t : Token} (h : t ∈ tokens text) : tokenOk t = true :=
  tokenOk_of_mem_pushToken (splitToken_tokenOk text).1 (splitToken_tokenOk text).2 h

theorem lineLength_pushToken_le (t : Token) (rest : List Token) :
    lineLength (pushToken t rest) ≤ 1 + t.length + lineLength rest := by
  by_cases h : t = []
  · simp [h]
  · rw [pushToken_of_ne_nil h, lineLength]

theorem lineLength_splitToken_le (text : Bytes) :
    (splitToken text).1.length + lineLength (splitToken text).2 ≤ text.length + 3 := by
  induction text with
  | nil => simp [splitToken, lineLength]
  | cons c cs ih =>
    rw [List.length_cons]
    cases hc : isWs c
    · simp only [splitToken_cons_not_ws hc, List.length_cons]
      omega
    · have := lineLength_pushToken_le (splitToken cs).1 (splitToken cs).2
      simp only [splitToken_cons_ws hc, tokens, List.length_nil]
      omega

/-- A text is at least as long as its tokens with one character between each two: the 4 is `lineLength`'s three characters and the space
before the first token. -/
theorem lineLength_tokens_le (text : Bytes) : lineLength (tokens text) ≤ text.length + 4 := by
  have h1 := lineLength_pushToken_le (splitToken text).1 (splitToken text).2
  have h2 := lineLength_splitToken_le text
  rw [tokens]
  omega

/-- Settles O7: whitespace splits a text, and a run without it is one token. -/
theorem tokensAreMaximalRuns : Obligations.TokensAreMaximalRuns := by
  unfold Obligations.TokensAreMaximalRuns
  exact ⟨fun _ => isWs_iff, rfl, fun _ _ ht => tokenOk_iff.1 (tokenOk_of_mem_tokens ht), fun x y _ hc => tokens_append_ws hc x y,
    fun _ hne hws => tokens_of_tokenOk (tokenOk_iff.2 ⟨hne, hws⟩)⟩

/-! ## Fields of a packet (rules R81, R94) -/

/-- A blob's bytes: a `num32` field that gives the length of the payload. -/
theorem encBlob_of_length {V : Bytes} {a b c d : Byte} (h : V.length = num32 a b c d) : encBlob V = a :: b :: c :: d :: V := by
  rw [encBlob, h, encNum32_num32]
  rfl

theorem length_lt_of_num32 {V : Bytes} {a b c d : Byte} (h : V.length = num32 a b c d) : V.length < 2 ^ 32 :=
  h ▸ num32_lt a b c d

theorem Reg.isSome_ofIndex {n : Nat} : (Reg.ofIndex n).isSome = true ↔ n < 6 := by
  rw [Option.isSome_iff_exists]
  constructor
  · rintro ⟨r, hr⟩
    exact Reg.ofIndex_eq_some.1 hr ▸ r.index_lt
  · intro h
    obtain ⟨r, hr⟩ := Reg.exists_index h
    exact ⟨r, Reg.ofIndex_eq_some.2 hr.symm⟩

theorem Field.isSome_ofIndex {n : Nat} : (Field.ofIndex n).isSome = true ↔ n < 3 := by
  rw [Option.isSome_iff_exists]
  constructor
  · rintro ⟨f, hf⟩
    exact Field.ofIndex_eq_some.1 hf ▸ f.index_lt
  · intro h
    obtain ⟨f, hf⟩ := Field.exists_index h
    exact ⟨f, Field.ofIndex_eq_some.2 hf.symm⟩

/-- The `reg` byte of a store is the only one that reads back as it. -/
theorem Reg.ofIndex_toNat_eq_some {b : Byte} {r : Reg} : Reg.ofIndex b.toNat = some r ↔ b = BitVec.ofNat 8 r.index := by
  have := r.index_lt
  rw [Reg.ofIndex_eq_some, ← BitVec.toNat_inj, BitVec.toNat_ofNat, Nat.mod_eq_of_lt (by omega)]

theorem decodeSel_encSel (sr : ShiftReg) (f : Field) : decodeSel (encSel sr f) = some (sr, f) := by
  cases sr <;> cases f <;> rfl

/-- `sel` reads as something exactly where bits 7:3 are zero and bits 1:0 are a field's index. -/
theorem isSome_decodeSel {sel : Byte} : (decodeSel sel).isSome = true ↔ sel.toNat / 8 = 0 ∧ sel.toNat % 4 ≠ 3 := by
  have hf := Field.isSome_ofIndex (n := sel.toNat % 4)
  rw [decodeSel]
  by_cases h8 : sel.toNat / 8 = 0
  · rw [if_pos h8]
    cases h : Field.ofIndex (sel.toNat % 4) <;> simp [h, h8] at hf ⊢ <;> omega
  · simp [h8]

/-- The `sel` byte of a shift register and a field is the only one that reads back as them. -/
theorem decodeSel_eq_some {sel : Byte} {sr : ShiftReg} {f : Field} : decodeSel sel = some (sr, f) ↔ sel = encSel sr f := by
  refine ⟨fun h => ?_, fun h => h ▸ decodeSel_encSel sr f⟩
  unfold decodeSel at h
  split at h
  · split at h
    · next g hg =>
      cases h
      have hlow : sel.toNat % 4 = f.index := Field.ofIndex_eq_some.1 hg
      have hlt : sel.toNat < 8 := by omega
      apply BitVec.eq_of_toNat_eq
      rw [encSel, BitVec.toNat_ofNat, ← hlow]
      split <;> simp only [ShiftReg.bit] <;> omega
    · cases h
  · cases h

/-! ## Opcodes (rule R83) -/

theorem Opcode.ofByte_byte (o : Opcode) : Opcode.ofByte o.byte = some o := by cases o <;> rfl

theorem Opcode.ofByte_eq_some {b : Byte} {o : Opcode} : Opcode.ofByte b = some o ↔ b = o.byte := by
  refine ⟨fun h => ?_, fun h => h ▸ Opcode.ofByte_byte o⟩
  obtain ⟨row, hrow, rfl⟩ := Option.map_eq_some_iff.1 h
  have hb : row.1 = b := by simpa using List.find?_some hrow
  have htable : ∀ row ∈ opcodeTable, row.1 = row.2.byte := by decide
  exact hb ▸ htable row (List.mem_of_find?_eq_some hrow)

theorem decodePacket_byte (o : Opcode) (X : Bytes) : decodePacket (o.byte :: X) = decodeFields o X := by
  simp only [decodePacket, Opcode.ofByte_byte]

/-- A packet that decodes to an instruction starts with an opcode's byte, and the fields after it give the instruction. -/
theorem decodeFields_of_decodePacket {p : Packet} {i : Instr} (h : decodePacket p = .instr i) :
    ∃ o X, p = o.byte :: X ∧ decodeFields o X = .instr i := by
  cases p with
  | nil => cases h
  | cons op X =>
    rw [decodePacket] at h
    cases ho : Opcode.ofByte op with
    | none => simp only [ho] at h; cases h
    | some o =>
      simp only [ho] at h
      exact ⟨o, X, by rw [Opcode.ofByte_eq_some.1 ho], h⟩

/-! ## What the fields of each format decode to, and from which bytes alone (rule R82) -/

theorem decodeB_eq_instr {mk : Byte → Instr} {X : Bytes} {i : Instr} : decodeB mk X = .instr i ↔ ∃ id, X = [id] ∧ mk id = i := by
  match X with
  | [] => simp [decodeB]
  | [id] => simp [decodeB]
  | _ :: _ :: _ => simp [decodeB]

theorem decodeBN_eq_instr {mk : Byte → Nat → Instr} {X : Bytes} {i : Instr} :
    decodeBN mk X = .instr i ↔ ∃ id n, n < 2 ^ 32 ∧ X = id :: encNum32 n ∧ mk id n = i := by
  constructor
  · intro h
    unfold decodeBN at h
    split at h
    · next id a b c d =>
      cases h
      exact ⟨id, _, num32_lt a b c d, by rw [encNum32_num32], rfl⟩
    · cases h
  · rintro ⟨id, n, hn, rfl, rfl⟩
    obtain ⟨a, b, c, d, he, rfl⟩ := encNum32_spec hn
    rw [he]
    rfl

theorem decodeBV_eq_instr {mk : Byte → Bytes → Instr} {X : Bytes} {i : Instr} :
    decodeBV mk X = .instr i ↔ ∃ id V, V.length < 2 ^ 32 ∧ X = id :: encBlob V ∧ mk id V = i := by
  constructor
  · intro h
    unfold decodeBV at h
    split at h
    · next id a b c d V =>
      split at h
      · next hV =>
        cases h
        exact ⟨id, V, length_lt_of_num32 hV, by rw [encBlob_of_length hV], rfl⟩
      · cases h
    · cases h
  · rintro ⟨id, V, hV, rfl, rfl⟩
    obtain ⟨a, b, c, d, -, hn⟩ := encNum32_spec hV
    rw [encBlob_of_length hn.symm]
    exact if_pos hn.symm

theorem decodeM_eq_instr {X : Bytes} {i : Instr} :
    decodeM X = .instr i ↔ ∃ dst t tw l lw h hw, (tw < 2 ^ 32 ∧ lw < 2 ^ 32 ∧ hw < 2 ^ 32) ∧
      X = dst :: t :: (encNum32 tw ++ l :: (encNum32 lw ++ h :: encNum32 hw)) ∧ .merge dst t tw l lw h hw = i := by
  constructor
  · intro h
    unfold decodeM at h
    split at h
    · next dst t t0 t1 t2 t3 l l0 l1 l2 l3 h h0 h1 h2 h3 =>
      cases h
      refine ⟨dst, t, _, l, _, h, _, ⟨num32_lt t0 t1 t2 t3, num32_lt l0 l1 l2 l3, num32_lt h0 h1 h2 h3⟩, ?_, rfl⟩
      simp only [encNum32_num32, List.cons_append, List.nil_append]
    · cases h
  · rintro ⟨dst, t, tw, l, lw, h, hw, ⟨htw, hlw, hhw⟩, rfl, rfl⟩
    obtain ⟨t0, t1, t2, t3, et, rfl⟩ := encNum32_spec htw
    obtain ⟨l0, l1, l2, l3, el, rfl⟩ := encNum32_spec hlw
    obtain ⟨h0, h1, h2, h3, eh, rfl⟩ := encNum32_spec hhw
    rw [et, el, eh]
    rfl

theorem decodeC_eq_instr {X : Bytes} {i : Instr} :
    decodeC X = .instr i ↔ ∃ dst sr f, X = [dst, encSel sr f] ∧ .chain dst sr f = i := by
  constructor
  · intro h
    unfold decodeC at h
    split at h
    · next dst sel =>
      split at h
      · next sr f hsel =>
        cases h
        exact ⟨dst, sr, f, by rw [decodeSel_eq_some.1 hsel], rfl⟩
      · cases h
    · cases h
  · rintro ⟨dst, sr, f, rfl, rfl⟩
    simp only [decodeC, decodeSel_encSel]

theorem decodeQ_eq_instr {X : Bytes} {i : Instr} :
    decodeQ X = .instr i ↔ ∃ r : Reg, X = [BitVec.ofNat 8 r.index] ∧ .query r = i := by
  constructor
  · intro h
    unfold decodeQ at h
    split at h
    · next b =>
      split at h
      · next r hr =>
        cases h
        exact ⟨r, by rw [Reg.ofIndex_toNat_eq_some.1 hr], rfl⟩
      · cases h
    · cases h
  · rintro ⟨r, rfl, rfl⟩
    simp only [decodeQ, Reg.ofIndex_toNat_eq_some.2 rfl]

/-- A text that decodes to an instruction is a register command's: its first token names the store (rule R88). -/
theorem tokens_of_decodeLine {text : Bytes} {i : Instr} (h : decodeLine text = .instr i) :
    ∃ r args, tokens text = r.token :: args ∧ lineInstr r args = i := by
  unfold decodeLine at h
  split at h
  · cases h
  · next t args ht =>
    split at h
    · next r hr =>
      cases h
      have hrt : r.token = t := by simpa using List.find?_some hr
      exact ⟨r, args, hrt ▸ ht, rfl⟩
    · cases h

theorem decodeLine_of_decodeL {X : Bytes} {i : Instr} (h : decodeL X = .instr i) :
    ∃ text, text.length < 2 ^ 32 ∧ decodeLine text = .instr i := by
  unfold decodeL at h
  split at h
  · next a b c d text =>
    split at h
    · next hlen => exact ⟨text, length_lt_of_num32 hlen, h⟩
    · cases h
  · cases h

/-! ## Encoding and decoding -/

/-- The text of a register command has the tokens it was made of (rules R87, R98). -/
theorem tokens_append_encodeArgs (args : List Token) (hargs : ∀ a ∈ args, tokenOk a = true) :
    ∀ {t : Token}, tokenOk t = true → tokens (t ++ encodeArgs args) = t :: args := by
  induction args with
  | nil =>
    intro t ht
    rw [encodeArgs, List.append_nil, tokens_of_tokenOk ht]
  | cons a args ih =>
    intro t ht
    obtain ⟨ha, hargs⟩ := List.forall_mem_cons.1 hargs
    rw [encodeArgs, tokens_append_ws (by decide), tokens_of_tokenOk ht, ih hargs ha]
    rfl

theorem tokenOk_token (r : Reg) : tokenOk r.token = true := by cases r <;> rfl

theorem length_token (r : Reg) : r.token.length = 3 := by cases r <;> rfl

theorem Reg.ofToken_token (r : Reg) : Reg.ofToken r.token = some r := by cases r <;> rfl

@[simp] theorem wellFormed_lineInstr (r : Reg) (args : List Token) : wellFormed (lineInstr r args) = lineOk args := by
  cases r <;> rfl

@[simp] theorem encode_lineInstr (r : Reg) (args : List Token) : encode (lineInstr r args) = encodeLine r args := by
  cases r <;> rfl

theorem lineOk_iff {args : List Token} : lineOk args = true ↔ (∀ a ∈ args, tokenOk a = true) ∧ lineLength args < 2 ^ 32 := by
  simp [lineOk, fitsNum32]

/-- The packet of a line's own spelling decodes to the line's command (rules R87, R88, R98). -/
theorem decodePacket_encodeLine (r : Reg) {args : List Token} (h : lineOk args = true) :
    decodePacket (encodeLine r args) = .instr (lineInstr r args) := by
  obtain ⟨hargs, hlen⟩ := lineOk_iff.1 h
  have htext : (r.token ++ encodeArgs args).length = lineLength args := by
    rw [List.length_append, length_token, length_encodeArgs]
  have htokens := tokens_append_encodeArgs args hargs (tokenOk_token r)
  rw [encodeLine, show Opcode.line.byte = 0x30 from rfl, Machine.decodePacket_line (htext ▸ hlen)]
  simp only [decodeLine, htokens, Reg.ofToken_token]

/-- The tokens after the first of a text that fits a packet are those of a register command some packet carries. -/
theorem lineOk_of_tokens {text : Bytes} {r : Reg} {args : List Token} (hlen : text.length < 2 ^ 32)
    (h : tokens text = r.token :: args) : lineOk args = true := by
  refine lineOk_iff.2 ⟨fun a ha => tokenOk_of_mem_tokens (h ▸ List.mem_cons_of_mem _ ha), ?_⟩
  have hle := lineLength_tokens_le text
  rw [h, lineLength, length_token] at hle
  omega

theorem wellFormed_merge {dst t l h : Byte} {tw lw hw : Nat} :
    wellFormed (.merge dst t tw l lw h hw) = true ↔ tw < 2 ^ 32 ∧ lw < 2 ^ 32 ∧ hw < 2 ^ 32 := by
  simp only [wellFormed, Bool.and_eq_true, Machine.fitsNum32_eq_true, and_assoc]

/-- What a packet decodes to is well formed, and either its packet is the only one that decodes to it or it is a register command. -/
theorem wellFormed_and_encode_of_decodePacket {p : Packet} {i : Instr} (h : decodePacket p = .instr i) :
    wellFormed i = true ∧ (encode i = p ∨ ∃ r args, i = lineInstr r args) := by
  obtain ⟨o, X, rfl, hX⟩ := decodeFields_of_decodePacket h
  cases o with
  | bcreate | bresizez =>
    obtain ⟨id, n, hn, rfl, rfl⟩ := decodeBN_eq_instr.1 hX
    exact ⟨Machine.fitsNum32_eq_true.2 hn, .inl rfl⟩
  | breset | bdestroy | bread | hexren =>
    obtain ⟨id, rfl, rfl⟩ := decodeB_eq_instr.1 hX
    exact ⟨rfl, .inl rfl⟩
  | bappend | hexdec =>
    obtain ⟨id, V, hV, rfl, rfl⟩ := decodeBV_eq_instr.1 hX
    exact ⟨Machine.fitsNum32_eq_true.2 hV, .inl rfl⟩
  | merge =>
    obtain ⟨dst, t, tw, l, lw, h, hw, hwidths, rfl, rfl⟩ := decodeM_eq_instr.1 hX
    exact ⟨wellFormed_merge.2 hwidths, .inl rfl⟩
  | chain =>
    obtain ⟨dst, sr, f, rfl, rfl⟩ := decodeC_eq_instr.1 hX
    exact ⟨rfl, .inl rfl⟩
  | line =>
    obtain ⟨text, hlen, hline⟩ := decodeLine_of_decodeL hX
    obtain ⟨r, args, ht, rfl⟩ := tokens_of_decodeLine hline
    exact ⟨by rw [wellFormed_lineInstr, lineOk_of_tokens hlen ht], .inr ⟨r, args, rfl⟩⟩
  | query =>
    obtain ⟨r, rfl, rfl⟩ := decodeQ_eq_instr.1 hX
    exact ⟨rfl, .inl rfl⟩

/-- Settles O2, format by format: each format's fields decode to what they were written from, and a line's text has the line's tokens. -/
theorem decodeOfEncode : Obligations.DecodeOfEncode := by
  unfold Obligations.DecodeOfEncode
  intro i hi
  cases i using Instr.casesLine with
  | line r args =>
    rw [encode_lineInstr]
    exact decodePacket_encodeLine r (wellFormed_lineInstr r args ▸ hi)
  | bcreate id n | bresizez id n =>
    rw [encode, decodePacket_byte]
    exact decodeBN_eq_instr.2 ⟨id, n, Machine.fitsNum32_eq_true.1 hi, rfl, rfl⟩
  | breset id | bdestroy id | bread id | hexren id =>
    rw [encode, decodePacket_byte]
    exact decodeB_eq_instr.2 ⟨id, rfl, rfl⟩
  | bappend id V | hexdec id V =>
    rw [encode, decodePacket_byte]
    exact decodeBV_eq_instr.2 ⟨id, V, Machine.fitsNum32_eq_true.1 hi, rfl, rfl⟩
  | merge dst t tw l lw h hw =>
    rw [encode, decodePacket_byte]
    exact decodeM_eq_instr.2 ⟨dst, t, tw, l, lw, h, hw, wellFormed_merge.1 hi, rfl, rfl⟩
  | chain dst sr f =>
    rw [encode, decodePacket_byte]
    exact decodeC_eq_instr.2 ⟨dst, sr, f, rfl, rfl⟩
  | query r =>
    rw [encode, decodePacket_byte]
    exact decodeQ_eq_instr.2 ⟨r, rfl, rfl⟩

/-- Settles O3: every format but `L` says which bytes its fields are written as. -/
theorem encodeOfDecode : Obligations.EncodeOfDecode := by
  unfold Obligations.EncodeOfDecode
  intro p i h hline
  obtain he | ⟨r, args, rfl⟩ := (wellFormed_and_encode_of_decodePacket h).2
  · exact he
  · exact absurd rfl (hline r args)

/-- Settles O4: `num32` fields hold numbers below `2^32`, and a line's tokens come from the tokenizer. -/
theorem decodedInstrIsWellFormed : Obligations.DecodedInstrIsWellFormed := by
  unfold Obligations.DecodedInstrIsWellFormed
  exact fun p i h => (wellFormed_and_encode_of_decodePacket h).1

/-! ## Packets that are not well formed (rules R85, R95) -/

/-- A decoded packet that is not malformed (rule R95): a command, or a line that names none, which is legal (rule R96). -/
def Decoded.Legal (d : Decoded) : Prop := ∀ w, d ≠ .reject w

@[simp] theorem Decoded.legal_instr (i : Instr) : (Decoded.instr i).Legal := fun _ h => by cases h

@[simp] theorem Decoded.legal_unknownLine : Decoded.unknownLine.Legal := fun _ h => by cases h

@[simp] theorem Decoded.not_legal_reject (w : PacketFlaw) : ¬ (Decoded.reject w).Legal := fun h => h w rfl

theorem legal_decodeB {mk : Byte → Instr} {X : Bytes} : (decodeB mk X).Legal ↔ X.length = 1 := by
  match X with
  | [] => simp [decodeB]
  | [id] => simp [decodeB]
  | _ :: _ :: _ => simp [decodeB]

theorem legal_decodeBN {mk : Byte → Nat → Instr} {X : Bytes} : (decodeBN mk X).Legal ↔ X.length = 5 := by
  match X with
  | [id, a, b, c, d] => simp [decodeBN]
  | [] | [_] | [_, _] | [_, _, _] | [_, _, _, _] | _ :: _ :: _ :: _ :: _ :: _ :: _ => simp [decodeBN]

theorem legal_decodeBV {mk : Byte → Bytes → Instr} {X : Bytes} :
    (decodeBV mk X).Legal ↔ 5 ≤ X.length ∧ X.length = 5 + val ((X.drop 1).take 4) := by
  match X with
  | id :: a :: b :: c :: d :: V =>
    have hlen : (id :: a :: b :: c :: d :: V).length = 5 + V.length := by simp; omega
    rw [hlen, List.drop_one, List.tail_cons, show (a :: b :: c :: d :: V).take 4 = [a, b, c, d] from rfl, ← num32_eq_val]
    by_cases h : V.length = num32 a b c d <;> simp [decodeBV, h]
  | [] | [_] | [_, _] | [_, _, _] | [_, _, _, _] => simp [decodeBV]

theorem legal_decodeLine (text : Bytes) : (decodeLine text).Legal := by
  obtain ⟨r, args, e⟩ | e := Machine.decodeLine_cases text <;> simp [e]

theorem legal_decodeL {X : Bytes} : (decodeL X).Legal ↔ 4 ≤ X.length ∧ X.length = 4 + val (X.take 4) := by
  match X with
  | a :: b :: c :: d :: text =>
    have hlen : (a :: b :: c :: d :: text).length = 4 + text.length := by simp; omega
    rw [hlen, show (a :: b :: c :: d :: text).take 4 = [a, b, c, d] from rfl, ← num32_eq_val]
    by_cases h : text.length = num32 a b c d <;> simp [decodeL, h, legal_decodeLine]
  | [] | [_] | [_, _] | [_, _, _] => simp [decodeL]

theorem legal_decodeM {X : Bytes} : (decodeM X).Legal ↔ X.length = 16 := by
  unfold decodeM
  split
  · simp
  · next hX =>
    refine iff_of_false (Decoded.not_legal_reject _) fun hlen => ?_
    match X, hlen with
    | [dst, t, t0, t1, t2, t3, l, l0, l1, l2, l3, h, h0, h1, h2, h3], _ => exact hX _ _ _ _ _ _ _ _ _ _ _ _ _ _ _ _ rfl

theorem legal_decodeC {X : Bytes} :
    (decodeC X).Legal ↔ ∃ dst sel : Byte, X = [dst, sel] ∧ sel.toNat / 8 = 0 ∧ sel.toNat % 4 ≠ 3 := by
  match X with
  | [dst, sel] =>
    have hsel := isSome_decodeSel (sel := sel)
    cases h : decodeSel sel <;> simp [decodeC, h] at hsel ⊢ <;> omega
  | [] | [_] | _ :: _ :: _ :: _ => simp [decodeC]

theorem legal_decodeQ {X : Bytes} : (decodeQ X).Legal ↔ ∃ r : Byte, X = [r] ∧ r.toNat ≤ 5 := by
  match X with
  | [b] =>
    have hb := Reg.isSome_ofIndex (n := b.toNat)
    cases h : Reg.ofIndex b.toNat <;> simp [decodeQ, h] at hb ⊢ <;> omega
  | [] | _ :: _ :: _ => simp [decodeQ]

/-- Rule R95's list starts each packet with an opcode of the table. -/
theorem isSome_ofByte_of_packetWellFormed {op : Byte} {X : Bytes} (h : Machine.PacketWellFormed (op :: X)) :
    (Opcode.ofByte op).isSome = true := by
  obtain ⟨h, -⟩ | ⟨h, -⟩ | ⟨h, -⟩ | ⟨rfl, -⟩ | ⟨rfl, -⟩ | ⟨rfl, -⟩ | ⟨rfl, -⟩ := h
  · fin_cases h <;> rfl
  · fin_cases h <;> rfl
  · fin_cases h <;> rfl
  · rfl
  · rfl
  · rfl
  · rfl

/-- Rule R95's list is exactly the packets that the decoder does not reject. -/
theorem packetWellFormed_iff_legal {p : Packet} : Machine.PacketWellFormed p ↔ (decodePacket p).Legal := by
  cases p with
  | nil => exact iff_of_false id (Decoded.not_legal_reject _)
  | cons op X =>
    cases ho : Opcode.ofByte op with
    | none =>
      have hreject : decodePacket (op :: X) = .reject .reservedOpcode := by simp only [decodePacket, ho]
      refine iff_of_false (fun h => ?_) (hreject ▸ Decoded.not_legal_reject _)
      simpa [ho] using isSome_ofByte_of_packetWellFormed h
    | some o =>
      obtain rfl := Opcode.ofByte_eq_some.1 ho
      rw [decodePacket_byte]
      cases o with
      | bcreate | bresizez => simpa [Machine.PacketWellFormed, Opcode.byte, decodeFields] using legal_decodeBN.symm
      | breset | bdestroy | bread | hexren => simpa [Machine.PacketWellFormed, Opcode.byte, decodeFields] using legal_decodeB.symm
      | bappend | hexdec => simpa [Machine.PacketWellFormed, Opcode.byte, decodeFields] using legal_decodeBV.symm
      | merge => simpa [Machine.PacketWellFormed, Opcode.byte, decodeFields] using legal_decodeM.symm
      | chain => simpa [Machine.PacketWellFormed, Opcode.byte, decodeFields] using legal_decodeC.symm
      | line => simpa [Machine.PacketWellFormed, Opcode.byte, decodeFields] using legal_decodeL.symm
      | query => simpa [Machine.PacketWellFormed, Opcode.byte, decodeFields] using legal_decodeQ.symm

end Sys2Proof

namespace Sys2Proof.Machine

/-! ## `BadPacket` is the port's refusal alone (rule R95) -/

theorem resolveSlot_ne_badPacket (s : State) (id : Byte) : resolveSlot s id ≠ .refuse .badPacket := by
  obtain ⟨r, f, -, e⟩ | ⟨i, -, -, e⟩ | ⟨-, e⟩ := bufRef_cases s.nscratch id <;> simp [resolveSlot, e]

theorem withWrite_ne_badPacket {s : State} {id : Byte} {k : Nat → Buf → Out} (hk : ∀ i b, k i b ≠ .refused .badPacket) :
    withWrite s id k ≠ .refused .badPacket := by
  have hslot := resolveSlot_ne_badPacket s id
  cases hr : resolveSlot s id with
  | refuse r =>
    have hne : r ≠ .badPacket := fun e => hslot (e ▸ hr)
    simp [withWrite, resolveWrite, hr, hne]
  | ok i => cases hs : s.slot i <;> simp [withWrite, resolveWrite, hr, hs, hk]

theorem withRead_ne_badPacket {s : State} {id : Byte} {k : Buf → Out} (hk : ∀ b, k b ≠ .refused .badPacket) :
    withRead s id k ≠ .refused .badPacket := by
  obtain ⟨r, f, -, e⟩ | ⟨i, -, -, e⟩ | ⟨-, e⟩ := bufRef_cases s.nscratch id
  · simp [withRead, resolveRead, e, hk]
  · cases hs : s.slot i <;> simp [withRead, resolveRead, e, hs, hk]
  · simp [withRead, resolveRead, e]

theorem storeBytes_ne_refused {s : State} {i : Nat} {b : Buf} {Y : Bytes} {res : Result} {r : Refusal} :
    storeBytes s i b Y res ≠ .refused r := by
  obtain ⟨-, e⟩ | ⟨-, e⟩ := storeBytes_cases s i b Y res <;> simp [e]

theorem finish_ne_refused {s : State} {res : Result} {r : Refusal} : finish s res ≠ .refused r := by simp [finish]

theorem raise_ne_refused {s : State} {k : ErrorKind} {r : Refusal} : raise s k ≠ .refused r := by simp [raise]

theorem mergeInto_ne_badPacket {s : State} {dst t l h : Byte} {tw lw hw : Nat} :
    mergeInto dst t tw l lw h hw s ≠ .refused .badPacket := by
  refine withWrite_ne_badPacket fun i d => withRead_ne_badPacket fun bt => withRead_ne_badPacket fun bl =>
    withRead_ne_badPacket fun bh => ?_
  split
  · simp
  · dsimp only
    split
    · exact storeBytes_ne_refused
    · simp

/-- A command that the decoder has read is never refused with `BadPacket`. -/
theorem exec_ne_badPacket (i : Instr) (s : State) : exec i s ≠ .refused .badPacket := by
  cases i using Instr.casesLine with
  | line r args =>
    obtain ⟨t, ht, -⟩ := exec_lineInstr_answers r args s
    simp [ht]
  | bcreate id n =>
    rw [exec, execBcreate]
    have hslot := resolveSlot_ne_badPacket s id
    split
    · next r hr => rw [hr] at hslot; simpa using hslot
    · split
      · simp
      · split
        · exact finish_ne_refused
        · exact raise_ne_refused
  | breset id =>
    rw [exec, execBreset]
    exact withWrite_ne_badPacket fun i b => finish_ne_refused
  | bdestroy id =>
    rw [exec, execBdestroy]
    exact withWrite_ne_badPacket fun i b => finish_ne_refused
  | bappend id V =>
    rw [exec, execBappend]
    exact withWrite_ne_badPacket fun i b => storeBytes_ne_refused
  | bresizez id n =>
    rw [exec, execBresizez_eq_storeBytes]
    exact withWrite_ne_badPacket fun i b => storeBytes_ne_refused
  | bread id | hexren id => exact withRead_ne_badPacket fun b => finish_ne_refused
  | hexdec id text =>
    rw [exec, execHexdec]
    refine withWrite_ne_badPacket fun i b => ?_
    cases decodeHex text with
    | none => exact raise_ne_refused
    | some Y => exact storeBytes_ne_refused
  | merge dst t tw l lw h hw => exact mergeInto_ne_badPacket
  | chain dst sr f => exact mergeInto_ne_badPacket
  | query r => exact finish_ne_refused

/-- A packet is refused with `BadPacket` exactly where the decoder rejects it. -/
theorem runPacket_eq_badPacket {p : Packet} {s : State} : runPacket p s = .refused .badPacket ↔ ¬ (decodePacket p).Legal := by
  cases hd : decodePacket p with
  | instr i => simp [runPacket, hd, exec_ne_badPacket]
  | unknownLine => simp [runPacket, hd, execUnknownLine, raise_ne_refused]
  | reject w => simp [runPacket, hd]

/-- Settles O6: the decoder rejects exactly the packets that rule R95 calls not well formed, and only the port refuses so. -/
theorem malformedPacketsAreRefused : Obligations.MalformedPacketsAreRefused := by
  unfold Obligations.MalformedPacketsAreRefused
  intro p s
  rw [packetWellFormed_iff_legal]
  exact ⟨runPacket_eq_badPacket.2, fun hlegal hrefused => runPacket_eq_badPacket.1 hrefused hlegal⟩

/-! ## Operand forms of a line (rules R89 to R92) -/

theorem digitVal_eq_some {c : Byte} {d : Nat} :
    digitVal c = some d ↔ (0x30 ≤ c.toNat ∧ c.toNat ≤ 0x39) ∧ c.toNat - 0x30 = d := by
  simp [digitVal]

/-- The digits, least significant first, that a token's characters stand for (rule R89). -/
def digitsOf (w : Token) : List Nat := w.reverse.map fun c => c.toNat - 0x30

theorem ofDigits_digitsOf_cons (c : Byte) (w : Token) :
    Nat.ofDigits 10 (digitsOf (c :: w)) = (c.toNat - 0x30) * 10 ^ w.length + Nat.ofDigits 10 (digitsOf w) := by
  simp only [digitsOf, List.reverse_cons, List.map_append, List.map_cons, List.map_nil, Nat.ofDigits_append, List.length_map,
    List.length_reverse, Nat.ofDigits_singleton]
  ring

/-- Reading on from a value: the digits put it that many places to the left and add their own value. -/
theorem decimalFrom_eq_some {w : Token} : ∀ {acc n : Nat}, decimalFrom acc w = some n ↔
    (∀ c ∈ w, 0x30 ≤ c.toNat ∧ c.toNat ≤ 0x39) ∧ n = acc * 10 ^ w.length + Nat.ofDigits 10 (digitsOf w) := by
  induction w with
  | nil => simp [decimalFrom, digitsOf, eq_comm]
  | cons c w ih =>
    intro acc n
    rw [decimalFrom, List.forall_mem_cons, ofDigits_digitsOf_cons, List.length_cons, pow_succ]
    cases hd : digitVal c with
    | none =>
      have hc : ¬ (0x30 ≤ c.toNat ∧ c.toNat ≤ 0x39) := fun hc => by simp [digitVal_eq_some.2 ⟨hc, rfl⟩] at hd
      simp [hc]
    | some d =>
      obtain ⟨hc, rfl⟩ := digitVal_eq_some.1 hd
      simp only [ih, hc, true_and]
      ring_nf

theorem decimal_of_ne_nil {w : Token} (h : w ≠ []) : decimal w = decimalFrom 0 w := by
  cases w with
  | nil => exact absurd rfl h
  | cons c w => rfl

theorem decimal_eq_some {w : Token} {n : Nat} : decimal w = some n ↔
    w ≠ [] ∧ (∀ c ∈ w, 0x30 ≤ c.toNat ∧ c.toNat ≤ 0x39) ∧ n = Nat.ofDigits 10 (digitsOf w) := by
  by_cases h : w = []
  · simp [h, decimal]
  · rw [decimal_of_ne_nil h, decimalFrom_eq_some, Nat.zero_mul, Nat.zero_add]
    exact (and_iff_right h).symm

theorem decimal_zero_cons {w : Token} (h : w ≠ []) : decimal (0x30 :: w) = decimal w := (decimal_of_ne_nil h).symm

theorem ofKeyword_eq_some {k : Token} {f : Field} : ofKeyword k = some f ↔ k = keyword f :=
  ⟨eq_keyword_of_ofKeyword, fun h => h ▸ ofKeyword_keyword f⟩

theorem stripParens_eq_some {v h : Bytes} : stripParens v = some h ↔ v = 0x28#8 :: (h ++ [0x29#8]) :=
  ⟨eq_parens_of_stripParens, fun e => e ▸ stripParens_parens h⟩

/-- Settles O37: a keyword's spelling names its field and no other token does, and stripping undoes exactly one pair of parentheses. -/
theorem keywordsAndValues : Obligations.KeywordsAndValues := by
  unfold Obligations.KeywordsAndValues
  exact ⟨fun _ _ => ofKeyword_eq_some, rfl, rfl, rfl, fun _ _ => stripParens_eq_some⟩

/-! ## The errors of a value token -/

section
variable {n : Nat}

theorem pairValue_of_no_parens {v : Token} (h : ∀ t, v ≠ 0x28#8 :: (t ++ [0x29#8])) :
    pairValue n v = .error .malformedLineError := by
  have hs : stripParens v = none := Option.eq_none_iff_forall_ne_some.2 fun t ht => h t (eq_parens_of_stripParens ht)
  simp only [pairValue, hs]

theorem pairValue_of_bad_hex {h : Bytes} (hd : decodeHex h = none) :
    pairValue n (0x28#8 :: (h ++ [0x29#8])) = .error .malformedHexError := by
  simp only [pairValue, stripParens_parens, hd]

theorem pairValue_of_length_ne {h Y : Bytes} (hd : decodeHex h = some Y) (hlen : Y.length ≠ ceil8 n) :
    pairValue n (0x28#8 :: (h ++ [0x29#8])) = .error .malformedValueError := by
  simp only [pairValue, stripParens_parens, hd, if_neg hlen]

/-! ## The errors of a pair (rules R193, R196) -/

variable {f : Field} {rest : List Token} {seen : List Field} {new : BitStore}

theorem pairsStep_of_unknown_keyword {k : Token} (h : ∀ f, k ≠ keyword f) :
    pairsStep n (k :: rest) seen new = .error .unknownFieldError := by
  simp only [pairsStep, ofKeyword_eq_none h]

theorem pairsStep_of_repeated_keyword (h : f ∈ seen) :
    pairsStep n (keyword f :: rest) seen new = .error .malformedLineError := by
  simp only [pairsStep, ofKeyword_keyword, if_pos h]

theorem pairsStep_of_missing_value (h : f ∉ seen) : pairsStep n [keyword f] seen new = .error .malformedLineError := by
  simp only [pairsStep, ofKeyword_keyword, if_neg h]

theorem pairsStep_of_bad_value {v : Token} {k : ErrorKind} (h : f ∉ seen) (hv : pairValue n v = .error k) :
    pairsStep n (keyword f :: v :: rest) seen new = .error k := by
  simp only [pairsStep, ofKeyword_keyword, if_neg h, hv]

end

/-! ## The errors of a line (rules R96, R238) -/

section
variable {maxBytes : Option Nat} {old : BitStore} {w : Token} {n : Nat} {rest : List Token}

theorem parseStore_of_bad_width (h : decimal w = none) : parseStore maxBytes old (w :: rest) = .error .malformedLineError := by
  simp only [parseStore, h]

theorem parseStore_of_large_width (h : decimal w = some n) (hn : n ≠ old.numBits) (hf : fits maxBytes (ceil8 n) = false) :
    parseStore maxBytes old (w :: rest) = .error .allocationError := by
  simp [parseStore, h, widthStep, hn, hf]

/-- Behind a good width and good pairs the first error of the tokens that follow is the line's, whatever the store holds by then. -/
theorem parseStore_error_of_pairsStep {s : State} {r : Reg} {ps : List (Field × Bytes)} {k : ErrorKind} (hw : GoodWidth s r w n)
    (hps : GoodPairs n ps) (h : ∀ new, pairsStep n rest (ps.map Prod.fst).reverse new = .error k) :
    parseStore s.maxBytes (s.store r) (w :: (pairTokens ps ++ rest)) = .error k := by
  obtain ⟨hdec, hfit⟩ := hw
  obtain ⟨hnodup, hgood⟩ := hps
  have hpairs (new : BitStore) : pairsStep n (pairTokens ps ++ rest) [] new = .error k := by
    rw [pairsStep_good_pairs rest ps [] new hnodup (fun _ _ => List.not_mem_nil) hgood, List.append_nil, h]
  obtain ⟨-, e⟩ | ⟨-, -, e⟩ | ⟨hn, hf, -⟩ := widthStep_cases s.maxBytes (s.store r) n
  · simp only [parseStore, hdec, e, hpairs]
  · simp only [parseStore, hdec, e, hpairs]
  · simp [hn, hf] at hfit

end

/-- A line whose parse fails answers the error and changes nothing (rule R204). -/
theorem exec_lineInstr_of_error {s : State} {r : Reg} {args : List Token} {k : ErrorKind}
    (h : parseStore s.maxBytes (s.store r) args = .error k) :
    exec (lineInstr r args) s = .next { s with response := some (.error k) } := by
  rw [exec_lineInstr, execLine, h]
  rfl

/-- Settles O36: the digits' value, and the two errors of the width token. -/
theorem numbitsIsDecimal : Obligations.NumbitsIsDecimal := by
  unfold Obligations.NumbitsIsDecimal
  refine ⟨fun _ _ => decimal_eq_some, fun _ => decimal_zero_cons, fun s r w rest => ⟨fun h => ?_, fun n h hn hf => ?_⟩⟩
  · exact exec_lineInstr_of_error (parseStore_of_bad_width h)
  · exact exec_lineInstr_of_error (parseStore_of_large_width h hn hf)

/-- Settles O39, check by check in token order: the width token, then, behind the pairs that are good, the keyword and its value. -/
theorem lineErrorsInTokenOrder : Obligations.LineErrorsInTokenOrder := by
  unfold Obligations.LineErrorsInTokenOrder
  intro s r
  refine ⟨exec_lineInstr_of_error rfl, fun w rest h => exec_lineInstr_of_error (parseStore_of_bad_width h),
    fun w n rest h hn hf => exec_lineInstr_of_error (parseStore_of_large_width h hn hf), fun w n ps hw hps => ?_⟩
  have behind {rest : List Token} {k : ErrorKind} (h : ∀ new, pairsStep n rest (ps.map Prod.fst).reverse new = .error k) :=
    exec_lineInstr_of_error (parseStore_error_of_pairsStep hw hps h)
  refine ⟨fun k rest hk => behind fun _ => pairsStep_of_unknown_keyword hk,
    fun f rest hf => behind fun _ => pairsStep_of_repeated_keyword (List.mem_reverse.2 hf), fun f hf => ?_⟩
  have hseen : f ∉ (ps.map Prod.fst).reverse := mt List.mem_reverse.1 hf
  exact ⟨behind fun _ => pairsStep_of_missing_value hseen,
    fun v rest hv => behind fun _ => pairsStep_of_bad_value hseen (pairValue_of_no_parens hv),
    fun h rest hd => behind fun _ => pairsStep_of_bad_value hseen (pairValue_of_bad_hex hd),
    fun h Y rest hd hlen => behind fun _ => pairsStep_of_bad_value hseen (pairValue_of_length_ne hd hlen)⟩

/-! ## Packets written out, other events, and response packets -/

/-- Settles O1: each packet is evaluated. -/
theorem specPacketsDecode : Obligations.SpecPacketsDecode := by
  unfold Obligations.SpecPacketsDecode
  decide

/-- Settles O5: the formula is `num32`, which every format with a number decodes it by. -/
theorem num32FieldsAreBigEndian : Obligations.Num32FieldsAreBigEndian := by
  unfold Obligations.Num32FieldsAreBigEndian
  intro a b c d
  exact ⟨num32_lt a b c d, fun _ => rfl, fun _ => rfl, fun _ _ hV => if_pos hV, fun _ _ hV => if_pos hV, fun _ hV => if_pos hV,
    fun _ _ _ _ => rfl⟩

/-- Settles O10: the step takes the event from the script and runs it. -/
theorem stepOnOtherEvents : Obligations.StepOnOtherEvents := by
  unfold Obligations.StepOnOtherEvents
  refine ⟨fun s p rest hs hd => ?_, fun s p rest w hs hd => ?_, fun s rest hs => step_of_cons hs, fun s => step_of_nil⟩
  · simp only [step_of_cons hs, runEvent, runPacket, hd]
    rfl
  · simp only [step_of_cons hs, runEvent, runPacket, hd]

theorem responsePacket_of_some {s : State} {m : Nat} {r : Response} (hm : s.maxBytes = some m) (hr : s.response = some r) :
    s.responsePacket = r.packet := by
  simp [State.responsePacket, hm, hr]

/-- A result that fits its fields is laid out behind the status byte 0. -/
theorem packet_of_fits {r : Result} (h : r.fitsPacket = true) : (Response.ok r).packet = some (0x00 :: r.fields) := if_pos h

/-- Settles O55: each result fits its fields, and its layout is `Result.fields`. -/
theorem responsePacketLayout : Obligations.ResponsePacketLayout := by
  unfold Obligations.ResponsePacketLayout
  refine ⟨fun v n hv => ⟨length_be n v, val_be_of_lt hv⟩, rfl, fun data h => ?_, fun chars h => ?_, fun n h => ?_,
    fun n a b c hn ha hb hc => ?_, fun _ => rfl, fun s => ⟨fun hm => ?_, fun m r => responsePacket_of_some⟩⟩
  · exact packet_of_fits (by simp [Result.fitsPacket, fitsNum32_eq_true.2 h])
  · exact packet_of_fits (fitsNum32_eq_true.2 h)
  · exact packet_of_fits (fitsNum32_eq_true.2 h)
  · rw [packet_of_fits (by simp only [Result.fitsPacket, fitsNum32_eq_true.2, hn, ha, hb, hc, Bool.and_self])]
    simp only [Result.fields, encBlob, encNum32, List.append_assoc]
  · simp only [State.responsePacket, hm]

end Sys2Proof.Machine

/-! # The statements of 40_byte_buffer.md: operand resolution, hidden capacities, growth, the Byte Buffer commands, and the
frame of the readers -/

namespace Sys2Proof.Machine

/-! ## Operands that are refused (rule R120) -/

section
variable {s : State} {id : Byte} {r : Refusal}

/-- Resolution for writing and the slot alone refuse alike, but for a slot that is not live. -/
theorem resolveSlot_refuses (h : WriteRefusedWith s id r) (hr : r ≠ .notLive) : resolveSlot s id = .refuse r := by
  have hwrite := resolveWrite_refuses h
  unfold resolveWrite at hwrite
  cases hslot : resolveSlot s id with
  | refuse r' => simpa [hslot] using hwrite
  | ok i => cases hs : s.slot i <;> simp [hslot, hs, hr.symm] at hwrite

/-- `BCREATE` has the refusals of the slot alone (rule R122). -/
theorem exec_bcreate_refused {n : Nat} (h : WriteRefusedWith s id r) (hr : r ≠ .notLive) :
    exec (.bcreate id n) s = .refused r := by
  simp only [exec, execBcreate, resolveSlot_refuses h hr]

/-- Every other command that writes a scratch buffer resolves it first. -/
theorem exec_refused_of_written {i : Instr} (hi : writtenBuffer i = some id) (hcreate : ∀ n, i ≠ .bcreate id n)
    (h : WriteRefusedWith s id r) : exec i s = .refused r := by
  cases i with
  | bcreate id' n => cases hi; exact absurd rfl (hcreate n)
  | breset | bappend | bresizez | bdestroy | hexdec | merge | chain =>
    cases hi
    simp only [exec, execBreset, execBappend, execBresizez, execBdestroy, execHexdec, execMerge, execChain, mergeInto,
      withWrite_refused _ h]
  | bread | hexren | hdr | hir | sdr | sir | tdr | tir | query => cases hi

/-- A merge with a live destination refuses where its tail does. -/
theorem mergeInto_refused_of_tail {dst l h : Byte} {tw lw hw i : Nat} {d : Buf} (hd : ScratchHolds s dst i d)
    (hr : ReadRefusedWith s id r) : mergeInto dst id tw l lw h hw s = .refused r :=
  (withWrite_of_holds _ hd).trans (withRead_refused _ hr)

/-- A merge with a live destination and a readable tail refuses where its line does. -/
theorem mergeInto_refused_of_line {dst t h : Byte} {tw lw hw i : Nat} {d bt : Buf} (hd : ScratchHolds s dst i d)
    (ht : Readable s t bt) (hr : ReadRefusedWith s id r) : mergeInto dst t tw id lw h hw s = .refused r :=
  (withWrite_of_holds _ hd).trans ((withRead_of_readable _ ht).trans (withRead_refused _ hr))

/-- A merge with a live destination, a readable tail and a readable line refuses where its head does. -/
theorem mergeInto_refused_of_head {dst t l : Byte} {tw lw hw i : Nat} {d bt bl : Buf} (hd : ScratchHolds s dst i d)
    (ht : Readable s t bt) (hl : Readable s l bl) (hr : ReadRefusedWith s id r) :
    mergeInto dst t tw l lw id hw s = .refused r :=
  (withWrite_of_holds _ hd).trans
    ((withRead_of_readable _ ht).trans ((withRead_of_readable _ hl).trans (withRead_refused _ hr)))

end

/-- Settles O15: each command resolves its operands in order before it does anything else. -/
theorem operandResolutionRefuses : Obligations.OperandResolutionRefuses := by
  unfold Obligations.OperandResolutionRefuses
  intro s id r
  refine ⟨fun h => ?_, fun h => ?_⟩
  · have hw {i : Instr} (hi : writtenBuffer i = some id) (hcreate : ∀ n, i ≠ .bcreate id n) : exec i s = .refused r :=
      exec_refused_of_written hi hcreate h
    exact ⟨hw rfl nofun, fun _ => hw rfl nofun, fun _ => hw rfl nofun, hw rfl nofun, fun _ => hw rfl nofun,
      fun _ _ _ _ _ _ => hw rfl nofun, fun _ _ => hw rfl nofun, fun hr _ => exec_bcreate_refused h hr⟩
  · exact ⟨withRead_refused _ h, withRead_refused _ h, fun dst i d hd =>
      ⟨fun _ _ _ _ _ => mergeInto_refused_of_tail hd h, fun _ _ _ _ _ _ ht => mergeInto_refused_of_line hd ht h,
        fun _ _ _ _ _ _ _ ht hl => mergeInto_refused_of_head hd ht hl h⟩⟩

/-! ## Capacity is hidden (rules R34, R121): forgetting capacities commutes with every command -/

@[simp] theorem Buf.data_forgetCap (b : Buf) : b.forgetCap.data = b.data := rfl

@[simp] theorem Buf.len_forgetCap (b : Buf) : b.forgetCap.len = b.len := rfl

/-- A buffer's view is its contents alone. -/
@[simp] theorem Buf.forgetCap_mk (c : Nat) (Y : Bytes) : Buf.forgetCap { cap := c, data := Y } = { cap := 0, data := Y } := rfl

@[simp] theorem Buf.forgetCap_forgetCap (b : Buf) : b.forgetCap.forgetCap = b.forgetCap := rfl

@[simp] theorem Buf.forgetCap_withData (b : Buf) (Y : Bytes) : (b.withData Y).forgetCap = b.forgetCap.withData Y := rfl

@[simp] theorem BitStore.numBits_forgetCap (x : BitStore) : x.forgetCap.numBits = x.numBits := rfl

@[simp] theorem BitStore.field_forgetCap (x : BitStore) (f : Field) : x.forgetCap.field f = (x.field f).forgetCap := by
  cases f <;> rfl

theorem BitStore.forgetCap_setField (x : BitStore) (f : Field) (b : Buf) :
    (x.setField f b).forgetCap = x.forgetCap.setField f b.forgetCap := by
  cases f <;> rfl

@[simp] theorem State.maxBytes_forgetCap (s : State) : s.forgetCap.maxBytes = s.maxBytes := rfl

@[simp] theorem State.nscratch_forgetCap (s : State) : s.forgetCap.nscratch = s.nscratch := List.length_map _

@[simp] theorem State.store_forgetCap (s : State) (r : Reg) : s.forgetCap.store r = (s.store r).forgetCap := by
  cases r <;> rfl

@[simp] theorem State.slot_forgetCap (s : State) (i : Nat) : s.forgetCap.slot i = (s.slot i).map Buf.forgetCap := by
  simp only [State.slot, State.forgetCap, List.getElem?_map]
  cases s.scratch[i]? <;> rfl

@[simp] theorem State.forgetCap_respond (s : State) (x : Response) : (s.respond x).forgetCap = s.forgetCap.respond x := rfl

@[simp] theorem State.forgetCap_setSlot (s : State) (i : Nat) (v : Option Buf) :
    (s.setSlot i v).forgetCap = s.forgetCap.setSlot i (v.map Buf.forgetCap) := by
  simp only [State.setSlot, State.forgetCap, List.map_set]

@[simp] theorem State.forgetCap_setStore (s : State) (r : Reg) (x : BitStore) :
    (s.setStore r x).forgetCap = s.forgetCap.setStore r x.forgetCap := by
  cases r <;> rfl

@[simp] theorem State.forgetCap_forgetCap (s : State) : s.forgetCap.forgetCap = s.forgetCap := by
  have hslot : Buf.forgetCap ∘ Buf.forgetCap = Buf.forgetCap := rfl
  simp only [State.forgetCap, BitStore.forgetCap, List.map_map, Option.map_comp_map, hslot]
  rfl

/-- Two outcomes look alike once capacities are forgotten. -/
def SameView (o o' : Out) : Prop := outView State.forgetCap o = outView State.forgetCap o'

theorem SameView.refused {r : Refusal} : SameView (.refused r) (.refused r) := rfl

theorem SameView.ite {c : Prop} [Decidable c] {a a' b b' : Out} (ha : SameView a a') (hb : SameView b b') :
    SameView (if c then a else b) (if c then a' else b') := by
  split <;> assumption

theorem sameView_next {t t' : State} : SameView (.next t) (.next t') ↔ t.forgetCap = t'.forgetCap := by
  simp only [SameView, outView, Host.Outcome.next.injEq]

@[simp] theorem resolveSlot_forgetCap (s : State) (id : Byte) : resolveSlot s.forgetCap id = resolveSlot s id := by
  simp only [resolveSlot, State.nscratch_forgetCap]

/-- A command that writes a buffer resolves it alike, and so answers alike where it goes on alike. -/
theorem SameView.withWrite {s : State} {id : Byte} {k k' : Nat → Buf → Out}
    (hk : ∀ i b, SameView (k i b.forgetCap) (k' i b)) :
    SameView (withWrite s.forgetCap id k) (withWrite s id k') := by
  simp only [Machine.withWrite, resolveWrite, resolveSlot_forgetCap]
  cases resolveSlot s id with
  | refuse r => exact .refused
  | ok i =>
    simp only [State.slot_forgetCap]
    cases s.slot i with
    | none => exact .refused
    | some b => exact hk i b

/-- A command that reads a buffer resolves it alike, and so answers alike where it goes on alike. -/
theorem SameView.withRead {s : State} {id : Byte} {k k' : Buf → Out} (hk : ∀ b, SameView (k b.forgetCap) (k' b)) :
    SameView (withRead s.forgetCap id k) (withRead s id k') := by
  simp only [Machine.withRead, resolveRead, State.nscratch_forgetCap]
  cases bufRef s.nscratch id with
  | none => exact .refused
  | some x =>
    cases x with
    | store r f =>
      simp only [State.store_forgetCap, BitStore.field_forgetCap]
      exact hk _
    | scratch i =>
      simp only [State.slot_forgetCap]
      cases s.slot i with
      | none => exact .refused
      | some b => exact hk b

/-- Storing bytes asks for nothing but `MAXBYTES`: the old buffer's capacity shows in no view. -/
theorem SameView.storeBytes (s : State) (i : Nat) (b b' : Buf) (Y : Bytes) (res : Result) :
    SameView (storeBytes s.forgetCap i b Y res) (storeBytes s i b' Y res) := by
  cases h : fits s.maxBytes Y.length
  · rw [storeBytes_of_not_fits h, storeBytes_of_not_fits (s := s.forgetCap) h, sameView_next]
    simp
  · rw [storeBytes_of_fits h, storeBytes_of_fits (s := s.forgetCap) h, sameView_next]
    simp

theorem SameView.mergeInto (s : State) (dst t : Byte) (tw : Nat) (l : Byte) (lw : Nat) (h : Byte) (hw : Nat) :
    SameView (mergeInto dst t tw l lw h hw s.forgetCap) (mergeInto dst t tw l lw h hw s) := by
  refine .withWrite fun i d => .withRead fun bt => .withRead fun bl => .withRead fun bh => ?_
  exact .ite .refused (.ite (.storeBytes s i _ _ _ _) .refused)

/-! ### Command lines -/

/-- What a line makes of a store, with the capacities forgotten. -/
def LineResult.forgetCap : LineResult BitStore → LineResult BitStore
  | .ok x => .ok x.forgetCap
  | .error k => .error k

theorem widthStep_forgetCap (maxBytes : Option Nat) (old : BitStore) (n : Nat) :
    widthStep maxBytes old.forgetCap n = (widthStep maxBytes old n).map BitStore.forgetCap := by
  obtain ⟨hn, e⟩ | ⟨hn, hf, e⟩ | ⟨hn, hf, e⟩ := widthStep_cases maxBytes old n
  · rw [e, widthStep, BitStore.numBits_forgetCap, if_pos hn]; rfl
  · rw [e, widthStep, BitStore.numBits_forgetCap, if_neg hn, if_pos hf]; rfl
  · rw [e, widthStep, BitStore.numBits_forgetCap, if_neg hn, hf]; rfl

theorem pairsStep_forgetCap (n : Nat) (toks : List Token) (seen : List Field) (new : BitStore) :
    pairsStep n toks seen new.forgetCap = (pairsStep n toks seen new).forgetCap := by
  fun_induction pairsStep n toks seen new with
  | case1 => rfl
  | case2 | case3 | case4 | case5 => simp [pairsStep, LineResult.forgetCap, *]
  | case6 seen new k f hk hf v rest Y hv ih =>
    rw [BitStore.forgetCap_setField, Buf.forgetCap_withData] at ih
    simp only [pairsStep, hk, if_neg hf, hv, BitStore.field_forgetCap, ih]

/-- A line's outcome shows no capacity of its store: the commit changes capacities alone (rule R196). -/
theorem parseStore_forgetCap (maxBytes : Option Nat) (old : BitStore) (args : List Token) :
    (parseStore maxBytes old.forgetCap args).forgetCap = (parseStore maxBytes old args).forgetCap := by
  cases args with
  | nil => rfl
  | cons w pairs =>
    simp only [parseStore]
    cases decimal w with
    | none => rfl
    | some n =>
      simp only [widthStep_forgetCap]
      cases widthStep maxBytes old n with
      | none => rfl
      | some new =>
        simp only [Option.map_some, pairsStep_forgetCap]
        cases pairsStep n pairs [] new <;> rfl

theorem SameView.execLine (s : State) (r : Reg) (args : List Token) :
    SameView (execLine r args s.forgetCap) (execLine r args s) := by
  simp only [Machine.execLine, State.maxBytes_forgetCap, State.store_forgetCap]
  match parseStore s.maxBytes (s.store r).forgetCap args, parseStore s.maxBytes (s.store r) args,
    parseStore_forgetCap s.maxBytes (s.store r) args with
  | .ok new', .ok new, h =>
    have hnew : new'.forgetCap = new.forgetCap := LineResult.ok.inj h
    exact sameView_next.2 (by simp [hnew])
  | .error k, .error _, rfl => exact sameView_next.2 (by simp)

/-- Every command answers a state as it answers the state with its capacities forgotten. -/
theorem exec_sameView (i : Instr) (s : State) : SameView (exec i s.forgetCap) (exec i s) := by
  cases i using Instr.casesLine with
  | line r args =>
    rw [exec_lineInstr, exec_lineInstr]
    exact .execLine s r args
  | bcreate id n =>
    simp only [exec, execBcreate, resolveSlot_forgetCap, State.slot_forgetCap, State.maxBytes_forgetCap]
    cases resolveSlot s id with
    | refuse r => exact .refused
    | ok i =>
      dsimp only
      cases s.slot i with
      | some b => exact .refused
      | none =>
        dsimp only [Option.map_none]
        exact .ite (sameView_next.2 (by simp)) (sameView_next.2 (by simp))
  | breset id =>
    simp only [exec, execBreset]
    exact .withWrite fun i b => sameView_next.2 (by simp)
  | bappend id V =>
    simp only [exec, execBappend]
    exact .withWrite fun i b => .storeBytes s i _ _ _ _
  | bresizez id n =>
    simp only [exec, execBresizez_eq_storeBytes]
    exact .withWrite fun i b => .storeBytes s i _ _ _ _
  | bdestroy id =>
    simp only [exec, execBdestroy]
    exact .withWrite fun i b => sameView_next.2 (by simp)
  | bread id =>
    simp only [exec, execBread, Buf.memRead_all]
    exact .withRead fun b => sameView_next.2 (by simp)
  | hexdec id text =>
    simp only [exec, execHexdec]
    refine .withWrite fun i b => ?_
    have hemptied : s.forgetCap.setSlot i (some (b.forgetCap.withData [])) =
        (s.setSlot i (some (b.withData []))).forgetCap := by simp
    simp only [hemptied]
    cases decodeHex text with
    | none => exact sameView_next.2 (by simp)
    | some Y => exact .storeBytes _ i _ _ _ _
  | hexren id =>
    simp only [exec, execHexren]
    exact .withRead fun b => sameView_next.2 (by simp)
  | merge dst t tw l lw h hw => exact .mergeInto s dst t tw l lw h hw
  | chain dst sr f =>
    simp only [exec, execChain, State.store_forgetCap, BitStore.numBits_forgetCap]
    exact .mergeInto s dst _ _ _ _ _ _
  | query r =>
    simp only [exec, execQuery, State.store_forgetCap]
    exact sameView_next.2 (by simp [BitStore.forgetCap])

/-- Settles O57: both states answer as the state they are once capacities are forgotten. -/
theorem capacityIsUnobservable : Obligations.CapacityIsUnobservable := by
  unfold Obligations.CapacityIsUnobservable
  intro i s s' h
  have hs := exec_sameView i s
  rw [h] at hs
  exact hs.symm.trans (exec_sameView i s')

/-! ## Growth (rule R121) -/

section
variable {maxBytes : Option Nat} {b b' : Buf} {need : Nat}

/-- A buffer of enough capacity does not grow. -/
theorem Buf.grow_of_le (h : need ≤ b.cap) : b.grow need = b := by
  rw [Buf.grow, max_eq_left h]

theorem ensure_eq_none : ensure maxBytes b need = none ↔ ∃ m, maxBytes = some m ∧ m < need := by
  rw [← fits_eq_false]
  cases h : fits maxBytes need <;> simp [ensure, h]

theorem ensure_eq_some : ensure maxBytes b need = some b' ↔ fits maxBytes need = true ∧ b.grow need = b' := by
  cases h : fits maxBytes need <;> simp [ensure, h]

end

/-- Settles O16: growth is refused by `fits` alone, and takes the larger of the capacity and the need. -/
theorem ensureFailsOnlyAboveMaxBytes : Obligations.EnsureFailsOnlyAboveMaxBytes := by
  unfold Obligations.EnsureFailsOnlyAboveMaxBytes
  refine fun maxBytes b need => ⟨ensure_eq_none, fun b' h => ?_⟩
  obtain ⟨-, rfl⟩ := ensure_eq_some.1 h
  exact ⟨rfl, Buf.grow_of_le, fun hlt => max_eq_right hlt.le⟩

/-! ## What is read at an id -/

section
variable {s : State} {id : Byte} {i : Nat} {b : Buf}

theorem readByte_of_readable (h : Readable s id b) (off : Nat) : s.readByte id off = b.data[off]? := by
  obtain ⟨i, hid, hs⟩ | ⟨r, f, hid, rfl⟩ := h
  · simp only [State.readByte, State.bufAt, bufRef_scratch hid (State.lt_of_slot hs), hs]
  · simp only [State.readByte, State.bufAt, bufRef_store hid]

theorem readByte_of_free (h : ScratchFree s id i) (off : Nat) : s.readByte id off = none := by
  obtain ⟨hid, hi, hs⟩ := h
  simp only [State.readByte, State.bufAt, bufRef_scratch hid hi, hs]

/-- A live slot replaced by a buffer holds that buffer. -/
theorem ScratchHolds.setSlot_some (h : ScratchHolds s id i b) (b' : Buf) : ScratchHolds (s.setSlot i (some b')) id i b' :=
  ⟨h.1, State.slot_setSlot_self s _ (State.lt_of_slot h.2)⟩

/-- A live slot released is free. -/
theorem ScratchHolds.setSlot_none (h : ScratchHolds s id i b) : ScratchFree (s.setSlot i none) id i := by
  have hi := State.lt_of_slot h.2
  exact ⟨h.1, by rwa [State.nscratch_setSlot], State.slot_setSlot_self s _ hi⟩

/-- Putting a buffer into the slot it stands in changes nothing. -/
theorem ScratchHolds.setSlot_self (h : ScratchHolds s id i b) : s.setSlot i (some b) = s := by
  obtain ⟨hi, e⟩ := List.getElem?_eq_some_iff.1 (State.slot_eq_some.1 h.2)
  rw [State.setSlot, ← e, List.set_getElem_self]

end

/-! ## The Byte Buffer commands (rules R122 to R127) -/

section
variable {s : State} {id : Byte} {i : Nat} {b : Buf}

/-- `BCREATE` of a free slot (rule R122). -/
theorem exec_bcreate_of_free {n : Nat} (h : ScratchFree s id i) :
    exec (.bcreate id n) s =
      if fits s.maxBytes n then finish (s.setSlot i (some { cap := n, data := [] })) .empty
      else raise s .allocationError := by
  obtain ⟨hid, hi, hs⟩ := h
  simp only [exec, execBcreate, resolveSlot_eq_ok.2 ⟨hid, hi⟩, hs]

/-- `BCREATE` of a live slot is refused (rule R122). -/
theorem exec_bcreate_of_holds {n : Nat} (h : ScratchHolds s id i b) : exec (.bcreate id n) s = .refused .alreadyLive := by
  simp only [exec, execBcreate, resolveSlot_eq_ok.2 ⟨h.1, State.lt_of_slot h.2⟩, h.2]

/-- `BAPPEND` of a live slot (rule R124) stores the old bytes and the new ones. -/
theorem exec_bappend_of_holds {V : Bytes} (h : ScratchHolds s id i b) :
    exec (.bappend id V) s = storeBytes s i b (b.data ++ V) .empty := by
  rw [exec, execBappend, withWrite_of_holds _ h]

/-- `BRESIZEZ` of a live slot (rule R125) stores zeros. -/
theorem exec_bresizez_of_holds {n : Nat} (h : ScratchHolds s id i b) :
    exec (.bresizez id n) s = storeBytes s i b (zeros n) .empty := by
  rw [exec, execBresizez_eq_storeBytes, withWrite_of_holds _ h]

end

/-- Settles O18: the slot decides between creation and refusal, and `MAXBYTES` between creation and `AllocationError`. -/
theorem createMakesAnEmptyBuffer : Obligations.CreateMakesAnEmptyBuffer := by
  unfold Obligations.CreateMakesAnEmptyBuffer
  refine ⟨fun id n hn => decodeOfEncode (.bcreate id n) (fitsNum32_eq_true.2 hn), fun s id i n => ?_⟩
  refine ⟨fun hfree hfits => ?_, fun hfree hfits => ?_, fun b => exec_bcreate_of_holds, fun hstore => ?_, fun hnone => ?_⟩
  · rw [exec_bcreate_of_free hfree, if_pos hfits]; rfl
  · rw [exec_bcreate_of_free hfree, hfits]; rfl
  · exact exec_bcreate_refused (.inr (.inl ⟨rfl, hstore⟩)) nofun
  · exact exec_bcreate_refused (.inl ⟨rfl, hnone⟩) nofun

/-- Settles O19: the live buffer found is replaced by the empty one of its capacity. -/
theorem resetTruncatesToZero : Obligations.ResetTruncatesToZero := by
  unfold Obligations.ResetTruncatesToZero
  exact fun s id i b => ⟨decodeOfEncode (.breset id) rfl, fun h => exec_breset_eq_next.2 ⟨i, b, h, rfl⟩⟩

/-- Settles O20: the old bytes with the new ones behind them are stored where they fit. -/
theorem appendExtendsTheBuffer : Obligations.AppendExtendsTheBuffer := by
  unfold Obligations.AppendExtendsTheBuffer
  refine ⟨fun id V hV => decodeOfEncode (.bappend id V) (fitsNum32_eq_true.2 hV), fun s id i b V hb => ?_⟩
  have hlen : (b.data ++ V).length = b.len + V.length := List.length_append
  refine ⟨fun hfits => ?_, fun hfits => ?_, fun hwf => ?_⟩
  · rw [exec_bappend_of_holds hb, storeBytes_of_fits (by rwa [hlen]), hlen]
    refine ⟨rfl, fun t ht => ?_⟩
    cases ht
    have hnew := hb.setSlot_some { cap := max b.cap (b.len + V.length), data := b.data ++ V }
    have hread := readByte_of_readable (.inl ⟨i, hnew⟩)
    refine ⟨fun k hk => ?_, fun k => ?_⟩
    · calc _ = (b.data ++ V)[k]? := hread k
        _ = b.data[k]? := List.getElem?_append_left hk
        _ = s.readByte id k := (readByte_of_readable (.inl ⟨i, hb⟩) k).symm
    · calc _ = (b.data ++ V)[b.len + k]? := hread (b.len + k)
        _ = V[k]? := by rw [Buf.len, List.getElem?_append_right (Nat.le_add_right ..), Nat.add_sub_cancel_left]
  · rw [exec_bappend_of_holds hb, storeBytes_of_not_fits (by rwa [hlen])]; rfl
  · obtain ⟨hcap, hfits⟩ := hwf
    rw [exec_bappend_of_holds hb, List.append_nil, storeBytes_of_fits (fits_mono hfits hcap)]
    have hgrow : ({ cap := max b.cap b.data.length, data := b.data } : Buf) = b := Buf.grow_of_le hcap
    rw [hgrow, hb.setSlot_self]
    rfl

/-- Settles O21: zeros are stored where they fit, and no zeros are the empty contents. -/
theorem resizeZeroFills : Obligations.ResizeZeroFills := by
  unfold Obligations.ResizeZeroFills
  refine ⟨fun id n hn => decodeOfEncode (.bresizez id n) (fitsNum32_eq_true.2 hn), fun s id i b n hb => ?_⟩
  refine ⟨fun hfits => ?_, fun hfits => ?_, ?_⟩
  · rw [exec_bresizez_of_holds hb, storeBytes_of_fits (by rwa [length_zeros]), length_zeros]; rfl
  · rw [exec_bresizez_of_holds hb, storeBytes_of_not_fits (by rwa [length_zeros])]; rfl
  · rw [exec_bresizez_of_holds hb, storeBytes_of_fits (fits_zero _), eq_comm, exec_breset_eq_next]
    exact ⟨i, b, hb, by simp [zeros]⟩

/-- Settles O22: the slot released is free, so it reads nothing and resolves for nothing but `BCREATE`. -/
theorem destroyReleasesTheSlot : Obligations.DestroyReleasesTheSlot := by
  unfold Obligations.DestroyReleasesTheSlot
  refine fun s id i b => ⟨decodeOfEncode (.bdestroy id) rfl, fun hb => ?_⟩
  have hexec : exec (.bdestroy id) s = .next ((s.setSlot i none).respond (.ok .empty)) :=
    exec_bdestroy_eq_next.2 ⟨i, b, hb, rfl⟩
  refine ⟨hexec, fun t ht => ?_⟩
  obtain rfl := Host.Outcome.next.inj (hexec.symm.trans ht)
  have hfree : ScratchFree ((s.setSlot i none).respond (.ok .empty)) id i := hb.setSlot_none
  exact ⟨readByte_of_free hfree, exec_refused_of_written rfl nofun (.inr (.inr ⟨rfl, i, hfree⟩)), hfree⟩

/-- Settles O23: the buffer that resolves is returned whole, and it is what is read at its id. -/
theorem readReturnsTheBuffer : Obligations.ReadReturnsTheBuffer := by
  unfold Obligations.ReadReturnsTheBuffer
  exact fun s id b => ⟨decodeOfEncode (.bread id) rfl, fun hb =>
    ⟨exec_bread_eq_next.2 ⟨b, hb, rfl⟩, fun off => (readByte_of_readable hb off).symm⟩⟩

/-! ## The readers -/

/-- All that a reader changes is the response. -/
theorem exec_reader_eq_next {i : Instr} {s t : State}
    (hi : (∃ id, i = .bread id) ∨ (∃ id, i = .hexren id) ∨ ∃ r, i = .query r) (h : exec i s = .next t) :
    ∃ x, t = s.respond x := by
  obtain ⟨id, rfl⟩ | ⟨id, rfl⟩ | ⟨r, rfl⟩ := hi
  · obtain ⟨b, -, ht⟩ := exec_bread_eq_next.1 h
    exact ⟨_, ht⟩
  · obtain ⟨b, -, ht⟩ := exec_hexren_eq_next.1 h
    exact ⟨_, ht⟩
  · exact ⟨_, exec_query_eq_next.1 h⟩

/-- Settles O48: the response is no part of what is read. -/
theorem readersChangeNothing : Obligations.ReadersChangeNothing := by
  unfold Obligations.ReadersChangeNothing
  intro i s t hi h
  obtain ⟨x, rfl⟩ := exec_reader_eq_next hi h
  exact ⟨rfl, rfl, rfl, rfl, fun _ _ => rfl⟩

end Sys2Proof.Machine

/-! # The statements of 41_hex_codec.md: digit values, the decoder and the renderer, `HEXDEC` and `HEXREN` -/

namespace Sys2Proof.Machine

/-! ## Digits (rule R140) -/

/-- The hex digit characters with their values. -/
theorem hexVal_eq_some {c : Byte} {v : Nat} : hexVal c = some v ↔
    (0x30 ≤ c.toNat ∧ c.toNat ≤ 0x39 ∧ v = c.toNat - 0x30) ∨
    (0x41 ≤ c.toNat ∧ c.toNat ≤ 0x46 ∧ v = c.toNat - 0x41 + 10) ∨
    (0x61 ≤ c.toNat ∧ c.toNat ≤ 0x66 ∧ v = c.toNat - 0x61 + 10) := by
  unfold hexVal
  split_ifs <;> simp only [Option.some.injEq, false_iff] <;> omega

theorem hexVal_lt {c : Byte} {v : Nat} (h : hexVal c = some v) : v < 16 := by
  rw [hexVal_eq_some] at h
  omega

theorem toNat_hexDigit {v : Nat} (hv : v < 16) : (hexDigit v).toNat = if v ≤ 9 then 0x30 + v else 0x41 + (v - 10) := by
  unfold hexDigit
  split_ifs <;> simp only [BitVec.toNat_ofNat] <;> omega

/-- A digit's character has the digit's value. -/
theorem hexVal_hexDigit {v : Nat} (hv : v < 16) : hexVal (hexDigit v) = some v := by
  rw [hexVal_eq_some, toNat_hexDigit hv]
  split_ifs <;> omega

theorem toNat_upperHex (c : Byte) :
    (upperHex c).toNat = if 0x61 ≤ c.toNat ∧ c.toNat ≤ 0x66 then c.toNat - 0x20 else c.toNat := by
  unfold upperHex
  split_ifs
  · simp only [BitVec.toNat_ofNat]; omega
  · rfl

/-- The digit of a character's value is the character in upper case. -/
theorem hexDigit_of_hexVal {c : Byte} {v : Nat} (h : hexVal c = some v) : hexDigit v = upperHex c := by
  apply BitVec.eq_of_toNat_eq
  rw [toNat_hexDigit (hexVal_lt h), toNat_upperHex]
  rw [hexVal_eq_some] at h
  split_ifs <;> omega

/-- Settles O24: the ranges are disjoint. -/
theorem hexDigitValues : Obligations.HexDigitValues := by
  unfold Obligations.HexDigitValues
  refine fun c => ⟨fun h => ?_, fun h => ?_, fun h => ?_, fun h₁ h₂ h₃ => ?_, fun v => toNat_hexDigit⟩
  · exact hexVal_eq_some.2 (.inl ⟨h.1, h.2, rfl⟩)
  · exact hexVal_eq_some.2 (.inr (.inl ⟨h.1, h.2, rfl⟩))
  · exact hexVal_eq_some.2 (.inr (.inr ⟨h.1, h.2, rfl⟩))
  · rw [hexVal, if_neg h₁, if_neg h₂, if_neg h₃]

/-! ## Rendering (rule R142) -/

theorem renderHex_cons (x : Byte) (X : Bytes) :
    renderHex (x :: X) = hexDigit (x.toNat / 16) :: hexDigit (x.toNat % 16) :: renderHex X := rfl

/-- Characters `2k` and `2k+1` of a rendered text are the digits of byte `k`, high nibble first. -/
theorem renderHex_getElem? (X : Bytes) (k : Nat) :
    (renderHex X)[2 * k]? = X[k]?.map (fun x => hexDigit (x.toNat / 16)) ∧
    (renderHex X)[2 * k + 1]? = X[k]?.map (fun x => hexDigit (x.toNat % 16)) := by
  induction X generalizing k with
  | nil => exact ⟨rfl, rfl⟩
  | cons x X ih =>
    cases k with
    | zero => exact ⟨rfl, rfl⟩
    | succ k => exact ih k

/-- Settles O26: the text rendered from the buffer read is the response. -/
theorem hexrenRendersTheBuffer : Obligations.HexrenRendersTheBuffer := by
  unfold Obligations.HexrenRendersTheBuffer
  refine fun s id b => ⟨decodeOfEncode (.hexren id) rfl, fun hb => ?_⟩
  refine ⟨renderHex b.data, exec_hexren_eq_next.2 ⟨b, hb, rfl⟩, length_renderHex b.data, fun k hk => ?_⟩
  have hk' : b.data[k]? = some (b.data.getD k 0) := by
    rw [List.getElem?_eq_getElem hk, List.getD_eq_getElem _ _ hk]
  simpa only [hk', Option.map_some] using renderHex_getElem? b.data k

/-! ## Decoding (rule R141) -/

/-- Two characters in front of a text decode to one byte in front of its bytes. -/
theorem decodeHex_pair_eq_some {a b : Byte} {rest Y : Bytes} : decodeHex (a :: b :: rest) = some Y ↔
    ∃ x y Z, hexVal a = some x ∧ hexVal b = some y ∧ decodeHex rest = some Z ∧ BitVec.ofNat 8 (16 * x + y) :: Z = Y := by
  rw [decodeHex]
  split
  · next x y Z ha hb hrest => simp [ha, hb, hrest]
  · next hno => exact ⟨nofun, fun ⟨x, y, Z, ha, hb, hrest, _⟩ => (hno x y Z ha hb hrest).elim⟩

theorem toNat_hexPair {a b : Byte} {x y : Nat} (ha : hexVal a = some x) (hb : hexVal b = some y) :
    (BitVec.ofNat 8 (16 * x + y)).toNat = 16 * x + y := by
  have hx := hexVal_lt ha
  have hy := hexVal_lt hb
  rw [BitVec.toNat_ofNat]
  omega

/-- A text decodes exactly where its length is even and its characters are hex digits. -/
theorem isSome_decodeHex (text : Bytes) :
    (decodeHex text).isSome = true ↔ text.length % 2 = 0 ∧ ∀ c ∈ text, (hexVal c).isSome = true := by
  induction text using List.twoStepInduction with
  | nil => simp [decodeHex]
  | singleton a => simp [decodeHex]
  | cons_cons a b rest ih _ =>
    have hpair : (decodeHex (a :: b :: rest)).isSome = true ↔
        (hexVal a).isSome = true ∧ (hexVal b).isSome = true ∧ (decodeHex rest).isSome = true := by
      simp only [Option.isSome_iff_exists, decodeHex_pair_eq_some]
      constructor
      · rintro ⟨_, x, y, Z, ha, hb, hrest, -⟩
        exact ⟨⟨x, ha⟩, ⟨y, hb⟩, ⟨Z, hrest⟩⟩
      · rintro ⟨⟨x, ha⟩, ⟨y, hb⟩, ⟨Z, hrest⟩⟩
        exact ⟨_, x, y, Z, ha, hb, hrest, rfl⟩
    have hlen : (a :: b :: rest).length % 2 = rest.length % 2 := Nat.add_mod_right _ 2
    rw [hpair, ih, hlen, List.forall_mem_cons, List.forall_mem_cons]
    tauto

/-- Rendering what a text decodes to gives the text in upper case (rule R143). -/
theorem renderHex_of_decodeHex {text : Bytes} :
    ∀ {Y : Bytes}, decodeHex text = some Y → renderHex Y = text.map upperHex := by
  induction text using List.twoStepInduction with
  | nil => rintro _ ⟨⟩; rfl
  | singleton a => rintro _ ⟨⟩
  | cons_cons a b rest ih _ =>
    intro Y h
    obtain ⟨x, y, Z, ha, hb, hrest, rfl⟩ := decodeHex_pair_eq_some.1 h
    have hy := hexVal_lt hb
    rw [renderHex_cons, toNat_hexPair ha hb, ih hrest, show (16 * x + y) / 16 = x by omega,
      show (16 * x + y) % 16 = y by omega, hexDigit_of_hexVal ha, hexDigit_of_hexVal hb]
    rfl

/-- Decoding what was rendered gives the bytes back (rule R143). -/
theorem decodeHex_renderHex (Y : Bytes) : decodeHex (renderHex Y) = some Y := by
  induction Y with
  | nil => rfl
  | cons b Y ih =>
    have hb : b.toNat < 256 := b.isLt
    refine decodeHex_pair_eq_some.2
      ⟨b.toNat / 16, b.toNat % 16, Y, hexVal_hexDigit (by omega), hexVal_hexDigit (by omega), ih, ?_⟩
    rw [Nat.div_add_mod, BitVec.ofNat_toNat, BitVec.setWidth_eq]

/-- Settles O27: the two directions are inductions over the text's pairs and over the bytes. -/
theorem hexRoundTrip : Obligations.HexRoundTrip := by
  unfold Obligations.HexRoundTrip
  exact ⟨fun _ _ => renderHex_of_decodeHex, decodeHex_renderHex, isSome_decodeHex⟩

/-- A text decodes to half as many bytes: each of them renders to two of its characters. -/
theorem length_of_decodeHex {text Y : Bytes} (h : decodeHex text = some Y) : Y.length = text.length / 2 := by
  have hlen := congrArg List.length (renderHex_of_decodeHex h)
  rw [length_renderHex, List.length_map] at hlen
  omega

/-- Byte `k` of a decoded text is made of characters `2k` and `2k+1`. -/
theorem getD_of_decodeHex {text : Bytes} : ∀ {Y : Bytes} {k : Nat}, decodeHex text = some Y → k < Y.length →
    ∃ x y, text[2 * k]?.bind hexVal = some x ∧ text[2 * k + 1]?.bind hexVal = some y ∧ (Y.getD k 0).toNat = 16 * x + y := by
  induction text using List.twoStepInduction with
  | nil => rintro _ k ⟨⟩ hk; cases hk
  | singleton a => rintro _ k ⟨⟩
  | cons_cons a b rest ih _ =>
    intro Y k h hk
    obtain ⟨x, y, Z, ha, hb, hrest, rfl⟩ := decodeHex_pair_eq_some.1 h
    cases k with
    | zero => exact ⟨x, y, ha, hb, toNat_hexPair ha hb⟩
    | succ k => exact ih hrest (Nat.lt_of_succ_lt_succ hk)

/-- An odd length or a character that is no digit is all that can be wrong with a text. -/
theorem decodeHex_eq_none {text : Bytes} :
    decodeHex text = none ↔ text.length % 2 = 1 ∨ ∃ c ∈ text, hexVal c = none := by
  rw [← Option.not_isSome_iff_eq_none, isSome_decodeHex, not_and_or, Nat.mod_two_not_eq_zero]
  simp only [not_forall, Option.not_isSome_iff_eq_none, exists_prop]

/-! ## `HEXDEC` -/

section
variable {s : State} {id : Byte} {i : Nat} {b : Buf} {text : Bytes}

/-- `HEXDEC` of malformed text empties the live target and raises `MalformedHexError`. -/
theorem exec_hexdec_of_malformed (hb : ScratchHolds s id i b) (hd : decodeHex text = none) :
    exec (.hexdec id text) s = raise (s.setSlot i (some { cap := b.cap, data := [] })) .malformedHexError := by
  simp only [exec, execHexdec, withWrite_of_holds _ hb, hd, Buf.withData]

/-- `HEXDEC` of well-formed text stores the decoded bytes into the emptied target. -/
theorem exec_hexdec_of_decoded {Y : Bytes} (hb : ScratchHolds s id i b) (hd : decodeHex text = some Y) :
    exec (.hexdec id text) s =
      storeBytes (s.setSlot i (some { cap := b.cap, data := [] })) i { cap := b.cap, data := [] } Y .empty := by
  simp only [exec, execHexdec, withWrite_of_holds _ hb, hd, Buf.withData]

end

/-- Settles O25: whether the text decodes decides first, and then whether the bytes fit. -/
theorem hexdecDecodesIntoTheBuffer : Obligations.HexdecDecodesIntoTheBuffer := by
  unfold Obligations.HexdecDecodesIntoTheBuffer
  refine ⟨fun id text ht => decodeOfEncode (.hexdec id text) (fitsNum32_eq_true.2 ht), fun s id i b text hb => ?_⟩
  refine ⟨fun hbad => exec_hexdec_of_malformed hb (decodeHex_eq_none.2 hbad), fun heven hdigits => ?_⟩
  obtain ⟨Y, hY⟩ := Option.isSome_iff_exists.1 ((isSome_decodeHex text).2 ⟨heven, hdigits⟩)
  refine ⟨Y, length_of_decodeHex hY, fun k => getD_of_decodeHex hY, fun hfits => ?_, fun hfits => ?_⟩
  · rw [exec_hexdec_of_decoded hb hY, storeBytes_of_fits (by simpa), State.setSlot_setSlot]; rfl
  · rw [exec_hexdec_of_decoded hb hY, storeBytes_of_not_fits (by simpa)]; rfl

end Sys2Proof.Machine

/-! # The statements of 42_bit_merge.md: the packing function and its two other forms, `MERGE` and `CHAIN` -/

namespace Sys2Proof

/-! ## Bits of a byte sequence -/

theorem pow_256_eq (n : Nat) : 256 ^ n = 2 ^ (8 * n) := by
  rw [show 256 = 2 ^ 8 from rfl, ← pow_mul]

theorem val_lt_two_pow (X : Bytes) : val X < 2 ^ (8 * X.length) :=
  pow_256_eq X.length ▸ val_lt X

theorem val_cons_two_pow (x : Byte) (X : Bytes) : val (x :: X) = 2 ^ (8 * X.length) * x.toNat + val X := by
  rw [val_cons, pow_256_eq, Nat.mul_comm]

/-- The first byte and the rest of a sequence have no bit in common, so their sum is a bitwise OR (rule R160). -/
theorem val_cons_or (x : Byte) (X : Bytes) : val (x :: X) = x.toNat <<< (8 * X.length) ||| val X := by
  rw [val_cons_two_pow, Nat.two_pow_add_eq_or_of_lt (val_lt_two_pow X), Nat.shiftLeft_eq, Nat.mul_comm]

/-- A byte sequence is known by its length and its value. -/
theorem eq_be_of_val {Y : Bytes} {n v : Nat} (hlen : Y.length = n) (hval : val Y = v) : Y = be v n := by
  rw [← hlen, ← hval, be_val]

/-- The low bits of a sequence cut inside its first byte: `r` bits of that byte, and all the others. -/
theorem val_cons_mod (x : Byte) (X : Bytes) (r : Nat) :
    val (x :: X) % 2 ^ (r + 8 * X.length) = x.toNat % 2 ^ r * 2 ^ (8 * X.length) + val X := by
  have hX := val_lt_two_pow X
  rw [val_cons_two_pow, Nat.add_comm r, pow_add, Nat.mod_mul, Nat.mul_add_mod, Nat.mod_eq_of_lt hX,
    Nat.mul_add_div (by positivity), Nat.div_eq_of_lt hX, Nat.add_zero]
  ring

/-- The low bits of a sequence lie in its last bytes. -/
theorem val_append_mod (A X : Bytes) {w : Nat} (h : w ≤ 8 * X.length) : val (A ++ X) % 2 ^ w = val X % 2 ^ w := by
  obtain ⟨c, hc⟩ := Nat.exists_eq_add_of_le h
  rw [val_append, pow_256_eq, hc, pow_add, Nat.mul_left_comm, Nat.mul_add_mod]

/-- `bitof(X, k)` is bit `k` of `val(X)`, for the bits the sequence has. -/
theorem Machine.bitof_eq_testBit {X : Bytes} {k : Nat} (hk : k < 8 * X.length) : bitof X k = ((val X).testBit k).toNat := by
  induction X with
  | nil => exact absurd hk (by simp)
  | cons x xs ih =>
    rw [val_cons_two_pow, Nat.testBit_two_pow_mul_add _ (val_lt_two_pow xs)]
    rw [List.length_cons] at hk
    by_cases hlow : k < 8 * xs.length
    · rw [if_pos hlow, ← ih hlow]
      have hidx : xs.length + 1 - 1 - k / 8 = xs.length - 1 - k / 8 + 1 := by omega
      rw [bitof, bitof, List.length_cons, hidx, List.getD_cons_succ]
    · have hidx : xs.length + 1 - 1 - k / 8 = 0 := by omega
      rw [if_neg hlow, Nat.toNat_testBit, show k - 8 * xs.length = k % 8 by omega, bitof, List.length_cons, hidx,
        List.getD_cons_zero]

end Sys2Proof

namespace Sys2Proof.Machine

/-! ## The packing function (rules R160, R162, R169) -/

theorem BitValue.inRange_iff {v : BitValue} : v.inRange = true ↔ v.width ≤ 8 * v.bytes.length := decide_eq_true_iff

/-- The number read when the Bit Value's bits follow those of the number `a`. -/
def BitValue.after (v : BitValue) (a : Nat) : Nat := a * 2 ^ v.width + v.low

@[simp] theorem BitValue.after_zero (v : BitValue) : v.after 0 = v.low := by simp [BitValue.after]

@[simp] theorem BitValue.low_width_zero (X : Bytes) : BitValue.low { bytes := X, width := 0 } = 0 := Nat.mod_one _

@[simp] theorem BitValue.after_width_zero (X : Bytes) (a : Nat) : BitValue.after { bytes := X, width := 0 } a = a := by
  simp [BitValue.after]

/-- The value `pack` writes, operand after operand. -/
theorem packValue_eq_after (t l h : BitValue) :
    t.low * 2 ^ (l.width + h.width) + l.low * 2 ^ h.width + h.low = h.after (l.after t.low) := by
  rw [BitValue.after, BitValue.after, pow_add]; ring

theorem packBytes_eq (t l h : BitValue) : packBytes t l h = be (h.after (l.after t.low)) (ceil8 (packTotal t l h)) := by
  rw [packBytes, packValue_eq_after]

theorem after_lt_two_pow_total (t l h : BitValue) : h.after (l.after t.low) < 2 ^ packTotal t l h :=
  packValue_eq_after t l h ▸ packValue_lt t l h

theorem val_packBytes (t l h : BitValue) : val (packBytes t l h) = h.after (l.after t.low) := by
  have hle := Nat.pow_le_pow_right Nat.two_pos (le_eight_mul_ceil8 (packTotal t l h))
  rw [packBytes_eq, val_be_of_lt]
  exact pow_256_eq _ ▸ (after_lt_two_pow_total t l h).trans_le hle

/-- The pad bits and the three operands fill the output's bytes. -/
theorem pad_add_widths (t l h : BitValue) :
    8 * ceil8 (packTotal t l h) - packTotal t l h + t.width + l.width + h.width = 8 * ceil8 (packTotal t l h) := by
  have hle := le_eight_mul_ceil8 (packTotal t l h)
  have htotal : packTotal t l h = t.width + l.width + h.width := rfl
  omega

/-- Settles O28: `be` writes a value that fits the output's bytes. -/
theorem packConcatenatesTailLineHead : Obligations.PackConcatenatesTailLineHead := by
  unfold Obligations.PackConcatenatesTailLineHead
  intro t l h
  have hval := val_packBytes t l h
  refine ⟨rfl, length_packBytes t l h, ?_, ?_⟩
  · rw [hval, ← packValue_eq_after]; rfl
  · rw [hval]; exact after_lt_two_pow_total t l h

/-- A bit of two numbers joined is one of the right one's bits below its width, and one of the left one's from there on. -/
theorem BitValue.testBit_after (v : BitValue) (a k : Nat) :
    (v.after a).testBit k = if k < v.width then (val v.bytes).testBit k else a.testBit (k - v.width) := by
  rw [BitValue.after, Nat.mul_comm, Nat.testBit_two_pow_mul_add _ v.low_lt]
  by_cases hk : k < v.width
  · rw [if_pos hk, if_pos hk, BitValue.low, Nat.testBit_mod_two_pow, decide_eq_true hk, Bool.true_and]
  · rw [if_neg hk, if_neg hk]

/-- The first bits of a Bit Value that is in range are those of its buffer. -/
theorem BitValue.toNat_testBit_bytes {v : BitValue} {k : Nat} (hv : v.inRange = true) (hk : k < v.width) :
    ((val v.bytes).testBit k).toNat = bitof v.bytes k :=
  (bitof_eq_testBit (hk.trans_le (BitValue.inRange_iff.1 hv))).symm

/-- Settles O29: the packed value is the operands joined, so its bits are theirs and none is at or above the total. -/
theorem packIsRightAligned : Obligations.PackIsRightAligned := by
  unfold Obligations.PackIsRightAligned
  intro t l h ht hl hh k hk
  rw [bitof_eq_testBit hk, val_packBytes, BitValue.testBit_after]
  by_cases hhead : k < h.width
  · rw [if_pos hhead, if_pos hhead, BitValue.toNat_testBit_bytes hh hhead]
  rw [if_neg hhead, if_neg hhead, BitValue.testBit_after]
  by_cases hline : k < h.width + l.width
  · have hk' : k - h.width < l.width := by omega
    rw [if_pos hline, if_pos hk', BitValue.toNat_testBit_bytes hl hk']
  rw [if_neg hline, if_neg (show ¬ k - h.width < l.width by omega), ← t.after_zero, BitValue.testBit_after, Nat.zero_testBit]
  by_cases htail : k < packTotal t l h
  · have hk' : k - h.width - l.width < t.width := by rw [packTotal] at htail; omega
    rw [if_pos htail, if_pos hk', BitValue.toNat_testBit_bytes ht hk']
  · have hk' : ¬ k - h.width - l.width < t.width := by rw [packTotal] at htail; omega
    rw [if_neg htail, if_neg hk', Bool.toNat_false]

/-- The result of `pack` taken as a Bit Value of the total width is the packed number: it is canonical. -/
theorem low_packBytes (t l h : BitValue) :
    BitValue.low { bytes := packBytes t l h, width := packTotal t l h } = h.after (l.after t.low) := by
  rw [BitValue.low, val_packBytes, Nat.mod_eq_of_lt (after_lt_two_pow_total t l h)]

/-- Settles O32: a Bit Value of width 0 leaves the number it follows as it is. -/
theorem packProperties : Obligations.PackProperties := by
  unfold Obligations.PackProperties
  refine ⟨length_packBytes, fun T H l => ?_, fun a b c E => ?_⟩
  · have htotal : packTotal { bytes := T, width := 0 } l { bytes := H, width := 0 } = l.width := by simp [packTotal]
    have hbytes : packBytes { bytes := T, width := 0 } l { bytes := H, width := 0 } = be l.low (ceil8 l.width) := by
      simp [packBytes_eq, htotal]
    exact ⟨htotal, hbytes, fun hlen hval => hbytes.trans (eq_be_of_val hlen (Nat.mod_eq_of_lt hval).symm).symm⟩
  · have htotal : packTotal { bytes := packBytes a b { bytes := E, width := 0 }, width := packTotal a b { bytes := E, width := 0 } } c
        { bytes := E, width := 0 } = packTotal a b c := rfl
    refine ⟨?_, htotal⟩
    rw [packBytes_eq _ c, htotal, low_packBytes, BitValue.after_width_zero, BitValue.after_width_zero, packBytes_eq]

/-! ## The bit-serial form (rule R165) -/

theorem setOutBit_cons_of_lt {p : Nat} (hp : p < 8) (x : Byte) (xs : Bytes) :
    setOutBit (x :: xs) p = (x ||| BitVec.ofNat 8 (2 ^ (7 - p))) :: xs := by
  rw [setOutBit, Nat.div_eq_of_lt hp, Nat.mod_eq_of_lt hp, List.modify_zero_cons]

theorem setOutBit_cons_add (p : Nat) (x : Byte) (xs : Bytes) : setOutBit (x :: xs) (p + 8) = x :: setOutBit xs p := by
  rw [setOutBit, Nat.add_div_right p (by decide), Nat.add_mod_right, List.modify_succ_cons]; rfl

@[simp] theorem length_setOutBit (out : Bytes) (p : Nat) : (setOutBit out p).length = out.length := by simp [setOutBit]

/-- Setting output bit `p` sets the bit of that position in the output's value. -/
theorem val_setOutBit {out : Bytes} : ∀ {p : Nat}, p < 8 * out.length →
    val (setOutBit out p) = val out ||| 2 ^ (8 * out.length - 1 - p) := by
  induction out with
  | nil => intro p hp; exact absurd hp (by simp)
  | cons x xs ih =>
    intro p hp
    rw [List.length_cons] at hp ⊢
    by_cases hlt : p < 8
    · have hbyte : 2 ^ (7 - p) < 2 ^ 8 := Nat.pow_lt_pow_right Nat.one_lt_two (by omega)
      have hbit : 2 ^ (8 * (xs.length + 1) - 1 - p) = 2 ^ (7 - p) <<< (8 * xs.length) := by
        rw [Nat.shiftLeft_eq, ← pow_add]; congr 1; omega
      rw [setOutBit_cons_of_lt hlt, val_cons_or, val_cons_or, BitVec.toNat_or, BitVec.toNat_ofNat, Nat.mod_eq_of_lt hbyte, hbit,
        Nat.shiftLeft_or_distrib, Nat.or_right_comm]
    · obtain ⟨q, rfl⟩ := Nat.exists_eq_add_of_le' (Nat.le_of_not_lt hlt)
      have hbit : 8 * (xs.length + 1) - 1 - (q + 8) = 8 * xs.length - 1 - q := by omega
      rw [setOutBit_cons_add, val_cons_or, val_cons_or, length_setOutBit, ih (by omega), hbit, Nat.or_assoc]

/-- The `n` output bytes of the bit-serial loop with the number `v` written above position `p` and zeros from there on. -/
def SerialHolds (n p v : Nat) (op : Bytes × Nat) : Prop :=
  op.1.length = n ∧ op.2 = p ∧ val op.1 = v * 2 ^ (8 * n - p)

/-- One turn of the loop writes the next bit. -/
theorem SerialHolds.next {n p v b : Nat} {op : Bytes × Nat} (h : SerialHolds n p v op) (hp : p < 8 * n) (hb : b < 2) :
    SerialHolds n (p + 1) (v * 2 + b) (if b = 1 then setOutBit op.1 op.2 else op.1, op.2 + 1) := by
  obtain ⟨out, q⟩ := op
  obtain ⟨rfl, rfl, hval⟩ := h
  dsimp only at hp hval ⊢
  obtain ⟨m, hm⟩ : ∃ m, 8 * out.length - q = m + 1 := ⟨8 * out.length - q - 1, by omega⟩
  rw [hm, pow_succ] at hval
  refine ⟨by split <;> simp, rfl, ?_⟩
  rw [show 8 * out.length - (q + 1) = m by omega]
  obtain rfl | rfl : b = 0 ∨ b = 1 := by omega
  · rw [if_neg (by decide), hval]; ring
  · have hlow : 2 ^ m < 2 ^ (m + 1) := Nat.pow_lt_pow_right (by decide) (by omega)
    rw [if_pos rfl, val_setOutBit hp, hval, show 8 * out.length - 1 - q = m by omega]
    calc v * (2 ^ m * 2) ||| 2 ^ m = 2 ^ (m + 1) * v ||| 2 ^ m := by rw [pow_succ, Nat.mul_comm v]
      _ = 2 ^ (m + 1) * v + 2 ^ m := (Nat.two_pow_add_eq_or_of_lt hlow v).symm
      _ = (v * 2 + 1) * 2 ^ m := by rw [pow_succ]; ring

/-- The loop writes the low `k` bits of a byte sequence that has them. -/
theorem SerialHolds.serialBits {n : Nat} {X : Bytes} {k : Nat} (hk : k ≤ 8 * X.length) :
    ∀ {p v : Nat} {op : Bytes × Nat}, SerialHolds n p v op → p + k ≤ 8 * n →
      SerialHolds n (p + k) (v * 2 ^ k + val X % 2 ^ k) (serialBits X k op) := by
  induction k with
  | zero => intro p v op h _; simpa [Machine.serialBits, Nat.mod_one] using h
  | succ k ih =>
    intro p v op h hp
    have hbit : bitof X k = val X / 2 ^ k % 2 := by rw [bitof_eq_testBit hk, Nat.toNat_testBit]
    have hnext := h.next (b := bitof X k) (by omega) (by omega)
    have hrest := ih (by omega) hnext (by omega)
    have hv : v * 2 ^ (k + 1) + val X % 2 ^ (k + 1) = (v * 2 + bitof X k) * 2 ^ k + val X % 2 ^ k := by
      rw [hbit, Nat.mod_pow_succ, pow_succ]; ring
    rw [hv, show p + (k + 1) = p + 1 + k by omega]
    exact hrest

/-- The loop over one operand puts its bits after the bits written. -/
theorem SerialHolds.operand {n p v : Nat} {op : Bytes × Nat} {x : BitValue} (h : SerialHolds n p v op)
    (hx : x.inRange = true) (hp : p + x.width ≤ 8 * n) :
    SerialHolds n (p + x.width) (x.after v) (Machine.serialBits x.bytes x.width op) :=
  h.serialBits (BitValue.inRange_iff.1 hx) hp

@[simp] theorem val_zeros (n : Nat) : val (zeros n) = 0 := by
  induction n with
  | zero => rfl
  | succ n ih => rw [zeros, List.replicate_succ, val_cons, ← zeros, ih]; simp

theorem serialHolds_zeros (n p : Nat) : SerialHolds n p 0 (zeros n, p) :=
  ⟨by simp [zeros], rfl, by simp⟩

/-- Settles O30: the three loops write the operands one after the other behind the pad bits, up to the last position. -/
theorem bitSerialFormIsPack : Obligations.BitSerialFormIsPack := by
  unfold Obligations.BitSerialFormIsPack
  intro t l h ht hl hh
  have hend := pad_add_widths t l h
  have htail := (serialHolds_zeros (ceil8 (packTotal t l h)) (8 * ceil8 (packTotal t l h) - packTotal t l h)).operand ht (by omega)
  have hline := htail.operand hl (by omega)
  obtain ⟨hlen, -, hval⟩ := hline.operand hh hend.le
  rw [packBytes_eq]
  refine eq_be_of_val hlen ?_
  rw [← t.after_zero, packSerial, hval, hend, Nat.sub_self, pow_zero, Nat.mul_one]

/-! ## The byte-wise streaming form (rule R166) -/

/-- The streaming loop has taken in `n` bits in all, which make the number `v`: whole bytes are out, and fewer than eight bits are in the
accumulator. -/
def Stream.Holds (n v : Nat) (st : Stream) : Prop :=
  st.nacc < 8 ∧ st.acc < 2 ^ st.nacc ∧ 8 * st.out.length + st.nacc = n ∧ val st.out * 2 ^ st.nacc + st.acc = v

theorem Stream.holds_mk {n v acc nacc : Nat} {out : Bytes} : Stream.Holds n v { out := out, acc := acc, nacc := nacc } ↔
    nacc < 8 ∧ acc < 2 ^ nacc ∧ 8 * out.length + nacc = n ∧ val out * 2 ^ nacc + acc = v := Iff.rfl

/-- A number of `m + 8` bits behind the bytes that are out, where `m` is below 8: its first eight bits are put out as a byte. -/
theorem Stream.holds_putByte {out : Bytes} {m a : Nat} (hm : m < 8) (ha : a < 2 ^ (m + 8)) :
    Stream.Holds (8 * out.length + (m + 8)) (val out * 2 ^ (m + 8) + a)
      { out := out ++ [BitVec.ofNat 8 (a / 2 ^ m)], acc := a % 2 ^ m, nacc := m } := by
  have hbyte : a / 2 ^ m < 2 ^ 8 := Nat.div_lt_of_lt_mul (by rwa [← pow_add])
  have hval : val [BitVec.ofNat 8 (a / 2 ^ m)] = a / 2 ^ m := by simpa [val_cons] using Nat.mod_eq_of_lt hbyte
  refine Stream.holds_mk.2 ⟨hm, Nat.mod_lt _ (by positivity), by rw [List.length_append, List.length_singleton]; omega, ?_⟩
  rw [val_append, List.length_singleton, hval]
  calc (val out * 256 ^ 1 + a / 2 ^ m) * 2 ^ m + a % 2 ^ m = val out * (2 ^ m * 2 ^ 8) + (2 ^ m * (a / 2 ^ m) + a % 2 ^ m) := by ring
    _ = val out * 2 ^ (m + 8) + a := by rw [Nat.div_add_mod, pow_add]

/-- A chunk of at most eight bits is taken in after the bits already there. -/
theorem Stream.Holds.chunk {n v k c : Nat} {st : Stream} (h : st.Holds n v) (hk : k ≤ 8) (hc : c < 2 ^ k) :
    (streamChunk k st c).Holds (n + k) (v * 2 ^ k + c) := by
  obtain ⟨out, acc, nacc⟩ := st
  obtain ⟨hnacc, hacc, rfl, rfl⟩ := h
  dsimp only at hnacc hacc ⊢
  have hlt : acc * 2 ^ k + c < 2 ^ (nacc + k) := by
    calc acc * 2 ^ k + c < (acc + 1) * 2 ^ k := by linarith
      _ ≤ 2 ^ nacc * 2 ^ k := Nat.mul_le_mul_right _ hacc
      _ = 2 ^ (nacc + k) := (pow_add 2 nacc k).symm
  have hv : (val out * 2 ^ nacc + acc) * 2 ^ k + c = val out * 2 ^ (nacc + k) + (acc * 2 ^ k + c) := by rw [pow_add]; ring
  rw [hv, Nat.add_assoc, streamChunk]
  by_cases hfull : 8 ≤ nacc + k
  · obtain ⟨m, hm⟩ := Nat.exists_eq_add_of_le' hfull
    simp only [hm, Nat.le_add_left, if_true, Nat.add_sub_cancel] at hlt ⊢
    exact Stream.holds_putByte (by omega) hlt
  · simp only [if_neg hfull]
    exact Stream.holds_mk.2 ⟨Nat.lt_of_not_le hfull, hlt, rfl, rfl⟩

/-- The whole bytes of an operand are taken in one after the other. -/
theorem Stream.Holds.bytes {xs : Bytes} : ∀ {n v : Nat} {st : Stream}, st.Holds n v →
    (xs.foldl (fun st b => streamChunk 8 st b.toNat) st).Holds (n + 8 * xs.length) (v * 2 ^ (8 * xs.length) + val xs) := by
  induction xs with
  | nil => intro n v st h; simpa using h
  | cons x xs ih =>
    intro n v st h
    have hrest := ih (h.chunk (Nat.le_refl 8) x.isLt)
    have hn : n + 8 * (x :: xs).length = n + 8 + 8 * xs.length := by rw [List.length_cons]; omega
    have hv : v * 2 ^ (8 * (x :: xs).length) + val (x :: xs) = (v * 2 ^ 8 + x.toNat) * 2 ^ (8 * xs.length) + val xs := by
      rw [List.length_cons, val_cons_two_pow, Nat.mul_succ, pow_add]; ring
    rw [hn, hv]
    exact hrest

/-- An operand of width above 0 that is in range: its last `ceil8(width)` bytes, the first of them with the `r` bits of it that count,
make its number. -/
theorem BitValue.exists_meaningful_bytes {x : BitValue} (hx : x.inRange = true) (hw : x.width ≠ 0) :
    ∃ b bs r, x.bytes.drop (x.bytes.length - ceil8 x.width) = b :: bs ∧ x.width - 8 * (ceil8 x.width - 1) = r ∧ r ≤ 8 ∧
      x.width = r + 8 * bs.length ∧ x.low = b.toNat % 2 ^ r * 2 ^ (8 * bs.length) + val bs := by
  have hrange := BitValue.inRange_iff.1 hx
  have hceil : ceil8 x.width = (x.width + 7) / 8 := rfl
  have hsplit := List.take_append_drop (x.bytes.length - ceil8 x.width) x.bytes
  have hlen := List.length_drop (i := x.bytes.length - ceil8 x.width) (l := x.bytes)
  cases hdrop : x.bytes.drop (x.bytes.length - ceil8 x.width) with
  | nil => rw [hdrop, List.length_nil] at hlen; omega
  | cons b bs =>
    rw [hdrop] at hsplit hlen
    rw [List.length_cons] at hlen
    have hwidth : x.width = x.width - 8 * (ceil8 x.width - 1) + 8 * bs.length := by omega
    refine ⟨b, bs, _, rfl, rfl, by omega, hwidth, ?_⟩
    rw [← val_cons_mod, ← hwidth, BitValue.low, ← hsplit, val_append_mod _ _ (by rw [List.length_cons]; omega)]

/-- The loop over one operand takes its bits in after those already there. -/
theorem Stream.Holds.operand {n v : Nat} {st : Stream} {x : BitValue} (h : st.Holds n v) (hx : x.inRange = true) :
    (streamValue st x).Holds (n + x.width) (x.after v) := by
  by_cases hw : x.width = 0
  · obtain ⟨X, w⟩ := x
    obtain rfl : w = 0 := hw
    simpa [streamValue] using h
  · obtain ⟨b, bs, r, hdrop, hr, hr8, hwidth, hlow⟩ := BitValue.exists_meaningful_bytes hx hw
    have hall := (h.chunk hr8 (Nat.mod_lt b.toNat (by positivity))).bytes (xs := bs)
    have hv : x.after v = (v * 2 ^ r + b.toNat % 2 ^ r) * 2 ^ (8 * bs.length) + val bs := by
      rw [BitValue.after, hlow, hwidth, pow_add]; ring
    simp only [streamValue, if_neg hw, hdrop, hr]
    rw [hv, hwidth, ← Nat.add_assoc]
    exact hall

theorem Stream.holds_start {n : Nat} (hn : n < 8) : Stream.Holds n 0 { out := [], acc := 0, nacc := n } :=
  ⟨hn, by positivity, by simp, by simp⟩

/-- When whole bytes have been taken in, all of them are out. -/
theorem Stream.Holds.out_eq {n v : Nat} {st : Stream} (h : st.Holds (8 * n) v) : st.out = be v n := by
  obtain ⟨hnacc, hacc, hn, hv⟩ := h
  have hnacc0 : st.nacc = 0 := by omega
  rw [hnacc0, pow_zero] at hacc hv
  exact eq_be_of_val (by omega) (by omega)

/-- Settles O31: the accumulator takes in the pad bits and the operands, which fill the output's bytes. -/
theorem streamingFormIsPack : Obligations.StreamingFormIsPack := by
  unfold Obligations.StreamingFormIsPack
  intro t l h ht hl hh
  have hpad : 8 * ceil8 (packTotal t l h) - packTotal t l h < 8 := by
    have := eight_mul_ceil8_lt (packTotal t l h)
    omega
  have hall := (((Stream.holds_start hpad).operand ht).operand hl).operand hh
  rw [pad_add_widths t l h] at hall
  rw [packBytes_eq, ← t.after_zero]
  exact hall.out_eq

/-! ## `MERGE` and `CHAIN` (rules R161, R167, R170) -/

section
variable {s : State} {dst t l h : Byte} {i : Nat} {d bt bl bh : Buf} {tw lw hw : Nat}

theorem exec_merge_eq_mergeInto : exec (.merge dst t tw l lw h hw) s = mergeInto dst t tw l lw h hw s := rfl

/-- A merge that is not refused, where the packed bytes fit. -/
theorem mergeInto_of_fits (hd : ScratchHolds s dst i d) (ht : Readable s t bt) (hl : Readable s l bl) (hh : Readable s h bh)
    (hne : dst ≠ t ∧ dst ≠ l ∧ dst ≠ h) (hin : tw ≤ 8 * bt.len ∧ lw ≤ 8 * bl.len ∧ hw ≤ 8 * bh.len)
    (hf : fits s.maxBytes (ceil8 (tw + lw + hw)) = true) :
    mergeInto dst t tw l lw h hw s =
      .next ((s.setSlot i (some
        { cap := max d.cap (ceil8 (tw + lw + hw)),
          data := packBytes { bytes := bt.data, width := tw } { bytes := bl.data, width := lw } { bytes := bh.data, width := hw } })).respond
        (.ok (.totalBits (tw + lw + hw)))) := by
  rw [mergeInto_of_resolved hd ht hl hh, if_neg (by simpa only [not_or] using hne), if_pos hin,
    storeBytes_of_fits (by rwa [length_packBytes]), length_packBytes, packTotal]

/-- A merge that is not refused, where the packed bytes do not fit. -/
theorem mergeInto_of_not_fits (hd : ScratchHolds s dst i d) (ht : Readable s t bt) (hl : Readable s l bl) (hh : Readable s h bh)
    (hne : dst ≠ t ∧ dst ≠ l ∧ dst ≠ h) (hin : tw ≤ 8 * bt.len ∧ lw ≤ 8 * bl.len ∧ hw ≤ 8 * bh.len)
    (hf : fits s.maxBytes (ceil8 (tw + lw + hw)) = false) :
    mergeInto dst t tw l lw h hw s = .next (s.respond (.error .allocationError)) := by
  rw [mergeInto_of_resolved hd ht hl hh, if_neg (by simpa only [not_or] using hne), if_pos hin,
    storeBytes_of_not_fits (by rwa [length_packBytes])]

/-- What storing bytes in a live slot leaves to be read there, where it succeeds. -/
theorem readByte_of_storeBytes_ok {Y : Bytes} {res r : Result} {x : State} (hd : ScratchHolds s dst i d)
    (hx : storeBytes s i d Y res = .next x) (hr : x.response = some (.ok r)) (off : Nat) : x.readByte dst off = Y[off]? := by
  obtain ⟨-, e⟩ | ⟨-, e⟩ := storeBytes_cases s i d Y res <;> rw [e] at hx <;> cases hx
  · exact readByte_of_readable (.inl ⟨i, hd.setSlot_some _⟩) off
  · cases hr

end

/-- Storing the same bytes under the same `MAXBYTES` gives the same response, whatever the buffer was. -/
theorem storeBytes_same_response {s s' x : State} {i i' : Nat} {d d' : Buf} {Y : Bytes} {res : Result}
    (hmax : s.maxBytes = s'.maxBytes) (hx : storeBytes s i d Y res = .next x) :
    ∃ x', storeBytes s' i' d' Y res = .next x' ∧ x'.response = x.response := by
  obtain ⟨hf, e⟩ | ⟨hf, e⟩ := storeBytes_cases s i d Y res <;> rw [e] at hx <;> cases hx <;> rw [hmax] at hf
  · exact ⟨_, storeBytes_of_fits hf, rfl⟩
  · exact ⟨_, storeBytes_of_not_fits hf, rfl⟩

/-- Settles O33: the packet is the one `encode` gives, and the two refusals come before the bytes are stored. -/
theorem mergePacksThreeOperands : Obligations.MergePacksThreeOperands := by
  unfold Obligations.MergePacksThreeOperands
  refine ⟨fun dst t tw l lw h hw ht hl hh => decodeOfEncode (.merge dst t tw l lw h hw) (wellFormed_merge.2 ⟨ht, hl, hh⟩), ?_⟩
  intro s dst t l h i d bt bl bh tw lw hw hd ht hl hh Y inWidth
  have hmerge := mergeInto_of_resolved (tw := tw) (lw := lw) (hw := hw) hd ht hl hh
  rw [exec_merge_eq_mergeInto]
  refine ⟨mergeInto_of_fits hd ht hl hh, mergeInto_of_not_fits hd ht hl hh, fun heq _ => ?_, fun hne hout => ?_, fun heq _ => .inl ?_⟩
  · rw [hmerge, if_pos heq]
  · rw [hmerge, if_neg (by simpa only [not_or] using hne), if_neg hout]
  · rw [hmerge, if_pos heq]

/-- `CHAIN` is the `MERGE` of its three stores' fields (rule R170). -/
theorem exec_chain_eq_merge (dst : Byte) (sr : ShiftReg) (f : Field) (s : State) :
    exec (.chain dst sr f) s =
      exec (.merge dst (storeId (trailerStore sr) f) (s.store (trailerStore sr)).numBits
        (storeId (bodyStore sr) f) (s.store (bodyStore sr)).numBits
        (storeId (headerStore sr) f) (s.store (headerStore sr)).numBits) s := rfl

/-- A scratch buffer's id is no store buffer's. -/
theorem ScratchHolds.ne_storeId {s : State} {id : Byte} {i : Nat} {b : Buf} (h : ScratchHolds s id i b) (r : Reg) (f : Field) :
    id ≠ storeId r f := by
  rintro rfl
  have hid := h.1
  rw [toNat_storeId] at hid
  have := r.index_lt
  have := f.index_lt
  omega

/-- In a well-formed memory a store's width is within each of its buffers (rule R22). -/
theorem Memory.numBits_le {s : State} (h : Memory.wf s) (r : Reg) (f : Field) :
    (s.store r).numBits ≤ 8 * ((s.store r).field f).len := by
  have hlen : ((s.store r).field f).len = ceil8 (s.store r).numBits := ((Memory.wf_iff.1 h).1 r f).1
  rw [hlen]
  exact le_eight_mul_ceil8 _

/-- The statement's three stores are those of the shift register. -/
theorem chainStores_eq {sr : ShiftReg} {tr bo he : Reg}
    (h : (sr = .instruction ∧ tr = .tir ∧ bo = .sir ∧ he = .hir) ∨ (sr = .data ∧ tr = .tdr ∧ bo = .sdr ∧ he = .hdr)) :
    tr = trailerStore sr ∧ bo = bodyStore sr ∧ he = headerStore sr := by
  obtain ⟨rfl, rfl, rfl, rfl⟩ | ⟨rfl, rfl, rfl, rfl⟩ := h <;> exact ⟨rfl, rfl, rfl⟩

/-- Settles O34: `CHAIN` is a `MERGE` whose operands are store buffers, each as long as its width needs. -/
theorem chainPacksTrailerBodyHeader : Obligations.ChainPacksTrailerBodyHeader := by
  unfold Obligations.ChainPacksTrailerBodyHeader
  refine ⟨fun dst => ⟨rfl, rfl, rfl, rfl, rfl, rfl⟩, fun s dst i d f hwf hd sr tr bo he hregs => ?_⟩
  obtain ⟨rfl, rfl, rfl⟩ := chainStores_eq hregs
  have hne : dst ≠ storeId (trailerStore sr) f ∧ dst ≠ storeId (bodyStore sr) f ∧ dst ≠ storeId (headerStore sr) f :=
    ⟨hd.ne_storeId _ f, hd.ne_storeId _ f, hd.ne_storeId _ f⟩
  have hin : _ ∧ _ ∧ _ := ⟨Memory.numBits_le hwf (trailerStore sr) f, Memory.numBits_le hwf (bodyStore sr) f,
    Memory.numBits_le hwf (headerStore sr) f⟩
  have hread := readable_storeId s
  intro total Y
  rw [exec_chain_eq_merge, exec_merge_eq_mergeInto]
  exact ⟨mergeInto_of_fits hd (hread _ f) (hread _ f) (hread _ f) hne hin,
    mergeInto_of_not_fits hd (hread _ f) (hread _ f) (hread _ f) hne hin, rfl⟩

/-- Settles O35: the refusals, the packed bytes and whether they fit are said by the operands' bytes, the widths and `MAXBYTES`. -/
theorem mergeDependsOnOperandsOnly : Obligations.MergeDependsOnOperandsOnly := by
  unfold Obligations.MergeDependsOnOperandsOnly
  intro s s' dst t l h i d d' bt bl bh bt' bl' bh' tw lw hw x hmax hd hd' ht ht' hl hl' hh hh' et el eh hx
  have etlen : bt.len = bt'.len := congrArg List.length et
  have ellen : bl.len = bl'.len := congrArg List.length el
  have ehlen : bh.len = bh'.len := congrArg List.length eh
  rw [exec_merge_eq_mergeInto, mergeInto_of_resolved hd ht hl hh, et, el, eh, etlen, ellen, ehlen] at hx
  rw [exec_merge_eq_mergeInto, mergeInto_of_resolved hd' ht' hl' hh']
  by_cases hdst : dst = t ∨ dst = l ∨ dst = h
  · rw [if_pos hdst] at hx; cases hx
  by_cases hin : tw ≤ 8 * bt'.len ∧ lw ≤ 8 * bl'.len ∧ hw ≤ 8 * bh'.len
  · rw [if_neg hdst, if_pos hin] at hx ⊢
    obtain ⟨x', hx', hresp⟩ := storeBytes_same_response (i' := i) (d' := d') hmax hx
    refine ⟨x', hx', hresp, fun ⟨r, hr⟩ off => ?_⟩
    rw [readByte_of_storeBytes_ok hd' hx' (hresp.trans hr), readByte_of_storeBytes_ok hd hx hr]
  · rw [if_neg hdst, if_neg hin] at hx; cases hx

end Sys2Proof.Machine

/-! # The statements of 43_register_parse.md: the store a line selects, what a line makes of it, lines over time, and `QUERY` -/

namespace Sys2Proof.Machine

/-! ## The first token (rule R191) -/

/-- A text whose first token is a register token is that register's command. -/
theorem decodeLine_of_tokens {text : Bytes} {r : Reg} {args : List Token} (h : tokens text = r.token :: args) :
    decodeLine text = .instr (lineInstr r args) := by
  simp only [decodeLine, h, Reg.ofToken_token]

/-- A text with no token, or with any other first token, names no command. -/
theorem decodeLine_of_no_register {text : Bytes} (h : ∀ (r : Reg) (args : List Token), tokens text ≠ r.token :: args) :
    decodeLine text = .unknownLine := by
  obtain ⟨r, args, e⟩ | e := decodeLine_cases text
  · obtain ⟨r', args', ht, -⟩ := tokens_of_decodeLine e
    exact absurd ht (h r' args')
  · exact e

/-- Settles O8: the `LINE` packet carries its text, whose first token is compared with the six. -/
theorem firstTokenSelectsTheStore : Obligations.FirstTokenSelectsTheStore := by
  unfold Obligations.FirstTokenSelectsTheStore
  refine ⟨fun text s hlen => ⟨fun r args h => ?_, fun h => ?_⟩, by decide⟩
  · exact runPacket_of_decode ((decodePacket_line hlen).trans (decodeLine_of_tokens h)) s
  · rw [runPacket, decodePacket_line hlen, decodeLine_of_no_register h]
    rfl

/-! ## The lines that raise nothing -/

/-- Step 2 at a width that fits: the store as it is where the width is kept, zeroed where it changes (rule R192). -/
def BitStore.resized (old : BitStore) (n : Nat) : BitStore := if n = old.numBits then old else old.zeroed n

/-- The store after a line of width `n` and pairs `ps` that raise nothing (rule R196). -/
def BitStore.afterLine (old : BitStore) (n : Nat) (ps : List (Field × Bytes)) : BitStore :=
  (applyPairs (old.resized n) ps).commit n

theorem widthStep_eq_some {maxBytes : Option Nat} {old new : BitStore} {n : Nat} :
    widthStep maxBytes old n = some new ↔ (n = old.numBits ∨ fits maxBytes (ceil8 n) = true) ∧ new = old.resized n := by
  obtain ⟨hn, e⟩ | ⟨hn, hf, e⟩ | ⟨hn, hf, e⟩ := widthStep_cases maxBytes old n
  · subst hn
    simp [e, BitStore.resized, eq_comm (a := new)]
  · simp [e, BitStore.resized, hn, hf, eq_comm (a := new)]
  · simp [e, hn, hf]

/-- A keyword whose pair raises nothing is followed by a good value, and the rest of the tokens go on from there. -/
theorem pairsStep_cons_ok {n : Nat} {k : Token} {rest : List Token} {seen : List Field} {new new' : BitStore}
    (hok : pairsStep n (k :: rest) seen new = .ok new') :
    ∃ f h Y rest', k = keyword f ∧ rest = (0x28#8 :: (h ++ [0x29#8])) :: rest' ∧ f ∉ seen ∧
      decodeHex h = some Y ∧ Y.length = ceil8 n ∧
      pairsStep n rest' (f :: seen) (new.setField f ((new.field f).withData Y)) = .ok new' := by
  rw [pairsStep] at hok
  cases hk : ofKeyword k with
  | none => simp only [hk] at hok; cases hok
  | some f =>
    by_cases hseen : f ∈ seen
    · simp only [hk, if_pos hseen] at hok; cases hok
    simp only [hk, if_neg hseen] at hok
    cases rest with
    | nil => cases hok
    | cons v rest' =>
      cases hv : pairValue n v with
      | error e => simp only [hv] at hok; cases hok
      | ok Y =>
        simp only [hv] at hok
        obtain ⟨h, hs, hd, hl⟩ := pairValue_eq_ok.1 hv
        exact ⟨f, h, Y, rest', ofKeyword_eq_some.1 hk, by rw [stripParens_eq_some.1 hs], hseen, hd, hl, hok⟩

/-- Tokens that raise nothing are those of pairs with no keyword twice or seen before, each of a good value: `pairsStep_good_pairs`
the other way round. -/
theorem exists_pairs_of_pairsStep_ok {n : Nat} : ∀ {toks : List Token} {seen : List Field} {new new' : BitStore},
    pairsStep n toks seen new = .ok new' →
    ∃ ps, toks = pairTokens ps ∧ (∀ f ∈ ps.map Prod.fst, f ∉ seen) ∧ GoodPairs n ps ∧ new' = applyPairs new ps
  | [], seen, new, new', hok => by
    cases hok
    exact ⟨[], rfl, by simp, ⟨List.nodup_nil, by simp⟩, rfl⟩
  | k :: rest, seen, new, new', hok => by
    obtain ⟨f, h, Y, rest', rfl, rfl, hf, hd, hl, hok⟩ := pairsStep_cons_ok hok
    obtain ⟨ps, rfl, hseen, ⟨hnd, hgood⟩, rfl⟩ := exists_pairs_of_pairsStep_ok hok
    have hfps : f ∉ ps.map Prod.fst := fun hmem => hseen f hmem List.mem_cons_self
    refine ⟨(f, h) :: ps, by simp [pairTokens], ?_, ⟨List.nodup_cons.2 ⟨hfps, hnd⟩, ?_⟩, by simp [applyPairs, hd]⟩
    · exact List.forall_mem_cons.2 ⟨hf, fun g hg hgs => hseen g hg (List.mem_cons_of_mem f hgs)⟩
    · exact List.forall_mem_cons.2 ⟨⟨Y, hd, hl⟩, hgood⟩

/-- The lines that raise nothing, and what each makes of its store (rule R196): a good width and then good pairs. -/
theorem parseStore_eq_ok {s : State} {r : Reg} {args : List Token} {new : BitStore} :
    parseStore s.maxBytes (s.store r) args = .ok new ↔
      ∃ w n ps, args = w :: pairTokens ps ∧ GoodWidth s r w n ∧ GoodPairs n ps ∧ new = (s.store r).afterLine n ps := by
  constructor
  · intro h
    cases args with
    | nil => cases h
    | cons w pairs =>
      rw [parseStore] at h
      cases hdec : decimal w with
      | none => simp only [hdec] at h; cases h
      | some n =>
        cases hw : widthStep s.maxBytes (s.store r) n with
        | none => simp only [hdec, hw] at h; cases h
        | some base =>
          obtain ⟨hfit, rfl⟩ := widthStep_eq_some.1 hw
          cases hp : pairsStep n pairs [] ((s.store r).resized n) with
          | error e => simp only [hdec, hw, hp] at h; cases h
          | ok new' =>
            simp only [hdec, hw, hp] at h
            cases h
            obtain ⟨ps, rfl, -, hps, rfl⟩ := exists_pairs_of_pairsStep_ok hp
            exact ⟨w, n, ps, rfl, ⟨hdec, hfit⟩, hps, rfl⟩
  · rintro ⟨w, n, ps, rfl, ⟨hdec, hfit⟩, ⟨hnd, hgood⟩, rfl⟩
    have hp := pairsStep_good_pairs [] ps [] ((s.store r).resized n) hnd (fun _ _ => List.not_mem_nil) hgood
    rw [List.append_nil, pairsStep] at hp
    simp only [parseStore, hdec, widthStep_eq_some.2 ⟨hfit, rfl⟩, hp]
    rfl

/-! ## The store after such a line (rules R192 to R194) -/

section
variable {old : BitStore} {n : Nat} {ps : List (Field × Bytes)} {f : Field}

@[simp] theorem BitStore.numBits_resized : (old.resized n).numBits = n := by
  unfold BitStore.resized
  split
  · next hn => exact hn.symm
  · rfl

@[simp] theorem BitStore.cap_resized : ((old.resized n).field f).cap = (old.field f).cap := by
  unfold BitStore.resized
  split <;> simp

theorem BitStore.resized_of_eq (h : n = old.numBits) : old.resized n = old := if_pos h

theorem BitStore.resized_of_ne (h : n ≠ old.numBits) : old.resized n = old.zeroed n := if_neg h

/-- A field that the pairs name, each keyword once, holds the named value. -/
theorem data_applyPairs_of_mem {h Y : Bytes} (hd : decodeHex h = some Y) : ∀ {ps : List (Field × Bytes)} {new : BitStore},
    (ps.map Prod.fst).Nodup → (f, h) ∈ ps → ((applyPairs new ps).field f).data = Y
  | (g, h') :: ps, new, hnd, hmem => by
    obtain ⟨hg, hnd⟩ := List.nodup_cons.1 hnd
    obtain heq | hmem := List.mem_cons.1 hmem
    · cases heq
      refine (congrArg Buf.data (field_applyPairs_of_not_mem ps _ hg)).trans ?_
      simp [hd, Buf.withData]
    · exact data_applyPairs_of_mem (new := new.setField g _) hd hnd hmem

@[simp] theorem BitStore.numBits_afterLine : (old.afterLine n ps).numBits = n := by simp [BitStore.afterLine]

@[simp] theorem BitStore.cap_afterLine : ((old.afterLine n ps).field f).cap = max (old.field f).cap (ceil8 n) := by
  simp [BitStore.afterLine, cap_applyPairs]

theorem BitStore.data_afterLine_of_mem {h Y : Bytes} (hps : GoodPairs n ps) (hmem : (f, h) ∈ ps) (hd : decodeHex h = some Y) :
    ((old.afterLine n ps).field f).data = Y := by
  simp only [BitStore.afterLine, BitStore.field_commit]
  exact data_applyPairs_of_mem hd hps.1 hmem

theorem BitStore.data_afterLine_of_not_mem (hf : ∀ h, (f, h) ∉ ps) :
    ((old.afterLine n ps).field f).data = ((old.resized n).field f).data := by
  have hmap : f ∉ ps.map Prod.fst := by simpa using hf
  simp only [BitStore.afterLine, BitStore.field_commit, field_applyPairs_of_not_mem ps _ hmap]

/-- Two buffers with the same capacity and the same contents are the same. -/
theorem Buf.ext_parts {b c : Buf} (hcap : b.cap = c.cap) (hdata : b.data = c.data) : b = c := by
  cases b
  cases hcap
  cases hdata
  rfl

/-- The same line once more leaves the store as it is (rule R208): the width is kept, the named fields get the bytes they have, and the
capacities are already raised. -/
theorem BitStore.afterLine_afterLine (hps : GoodPairs n ps) : (old.afterLine n ps).afterLine n ps = old.afterLine n ps := by
  refine BitStore.ext_field (by simp) fun f => ?_
  have hcap : (((old.afterLine n ps).afterLine n ps).field f).cap = ((old.afterLine n ps).field f).cap := by simp
  have hdata : (((old.afterLine n ps).afterLine n ps).field f).data = ((old.afterLine n ps).field f).data := by
    by_cases hf : ∃ h, (f, h) ∈ ps
    · obtain ⟨h, hmem⟩ := hf
      obtain ⟨Y, hd, -⟩ := hps.2 _ hmem
      rw [data_afterLine_of_mem hps hmem hd, data_afterLine_of_mem hps hmem hd]
    · rw [data_afterLine_of_not_mem (not_exists.1 hf), BitStore.resized_of_eq (by simp)]
  exact Buf.ext_parts hcap hdata

end

/-! ## The six register commands -/

section
variable {s t : State} {r : Reg} {args : List Token}

/-- A line whose parse gives a store replaces its own by it and answers ok (rule R196). -/
theorem exec_lineInstr_of_ok {new : BitStore} (h : parseStore s.maxBytes (s.store r) args = .ok new) :
    exec (lineInstr r args) s = .next ((s.setStore r new).respond (.ok .empty)) := by
  rw [exec_lineInstr, execLine, h]
  rfl

/-- All that a register command which answers has done: its store replaced, or nothing but the response. -/
theorem exec_lineInstr_eq_next (h : exec (lineInstr r args) s = .next t) :
    (∃ new, parseStore s.maxBytes (s.store r) args = .ok new ∧ t = (s.setStore r new).respond (.ok .empty)) ∨
      ∃ k, parseStore s.maxBytes (s.store r) args = .error k ∧ t = s.respond (.error k) := by
  rw [exec_lineInstr] at h
  obtain ⟨new, hp, e⟩ | ⟨k, hp, e⟩ := execLine_cases r args s <;> cases h.symm.trans e
  · exact .inl ⟨new, hp, rfl⟩
  · exact .inr ⟨k, hp, rfl⟩

/-- A register command that answers ok carries a good line and leaves the store that the line makes. -/
theorem exec_lineInstr_ok (h : exec (lineInstr r args) s = .next t) (hok : t.response = some (.ok .empty)) :
    ∃ w n ps, args = w :: pairTokens ps ∧ GoodWidth s r w n ∧ GoodPairs n ps ∧
      t = (s.setStore r ((s.store r).afterLine n ps)).respond (.ok .empty) := by
  obtain ⟨new, hp, rfl⟩ | ⟨k, -, rfl⟩ := exec_lineInstr_eq_next h
  · obtain ⟨w, n, ps, hargs, hw, hps, rfl⟩ := parseStore_eq_ok.1 hp
    exact ⟨w, n, ps, hargs, hw, hps, rfl⟩
  · cases hok

end

/-- Settles O38: the line's store is `BitStore.afterLine`, read field by field. -/
theorem lineSetsItsStore : Obligations.LineSetsItsStore := by
  unfold Obligations.LineSetsItsStore
  intro s r w n ps hw hps
  refine ⟨_, exec_lineInstr_of_ok (parseStore_eq_ok.2 ⟨w, n, ps, rfl, hw, hps, rfl⟩), rfl, ?_⟩
  simp only [State.store_respond, State.store_setStore_self]
  refine ⟨BitStore.numBits_afterLine, fun f h Y hmem hd => BitStore.data_afterLine_of_mem hps hmem hd, fun f hf hn => ?_,
    fun f hf hn => ?_, fun f => BitStore.cap_afterLine, fun r' hr => State.store_setStore_of_ne s _ hr, rfl, rfl, rfl⟩
  · rw [BitStore.data_afterLine_of_not_mem hf, BitStore.resized_of_ne hn, BitStore.field_zeroed]
    rfl
  · rw [BitStore.data_afterLine_of_not_mem hf, BitStore.resized_of_eq hn]

/-- No line touches another store, a scratch buffer, a parameter or the script (rule R204). -/
theorem exec_lineInstr_frame {r : Reg} {args : List Token} {s t : State} (h : exec (lineInstr r args) s = .next t) :
    (∀ r', r' ≠ r → t.store r' = s.store r') ∧ t.scratch = s.scratch ∧ t.maxBytes = s.maxBytes ∧ t.script = s.script := by
  obtain ⟨new, -, rfl⟩ | ⟨k, -, rfl⟩ := exec_lineInstr_eq_next h
  · exact ⟨fun r' hr => State.store_setStore_of_ne s new hr, rfl, rfl, rfl⟩
  · exact ⟨fun _ _ => rfl, rfl, rfl, rfl⟩

/-- A line that answers an error leaves the state as it was but for the response (rule R204). -/
theorem exec_lineInstr_error {r : Reg} {args : List Token} {s t : State} {k : ErrorKind}
    (h : exec (lineInstr r args) s = .next t) (hk : t.response = some (.error k)) : t = s.respond (.error k) := by
  obtain ⟨new, -, rfl⟩ | ⟨k', -, rfl⟩ := exec_lineInstr_eq_next h <;> cases hk
  rfl

/-- Settles O40: an error gives the response alone, and the frame holds of every answer. -/
theorem lineIsAllOrNothing : Obligations.LineIsAllOrNothing := by
  unfold Obligations.LineIsAllOrNothing
  intro r args s t h
  obtain ⟨hstores, hscratch, -, -⟩ := exec_lineInstr_frame h
  exact ⟨fun k hk => exec_lineInstr_error h hk, hstores, hscratch⟩

/-- Settles O50: an id that is none of the named store's three reads another store's buffer or a scratch buffer, which the frame keeps. -/
theorem linesFrame : Obligations.LinesFrame := by
  unfold Obligations.LinesFrame
  intro r args s t h
  obtain ⟨hstores, hscratch, hmax, hscript⟩ := exec_lineInstr_frame h
  refine ⟨hstores, hscratch, hmax, hscript, fun id off hid => ?_⟩
  refine State.readByte_congr (congrArg List.length hscratch) (fun r' f hrf => ?_) (fun i _ => ?_) off
  · have hr : r' ≠ r := by
      rintro rfl
      exact hid f (BitVec.eq_of_toNat_eq (hrf.trans (toNat_storeId r' f).symm))
    rw [hstores r' hr]
  · rw [State.slot, State.slot, hscratch]

/-- Settles O42: the parse, which reads the named store and `MAXBYTES` alone, decides the new store and the response. -/
theorem lineReadsOnlyItsStore : Obligations.LineReadsOnlyItsStore := by
  unfold Obligations.LineReadsOnlyItsStore
  intro r args s s' hstore hmax
  cases hp : parseStore s.maxBytes (s.store r) args with
  | ok new =>
    refine ⟨_, _, exec_lineInstr_of_ok hp, exec_lineInstr_of_ok (hstore ▸ hmax ▸ hp), ?_, rfl⟩
    simp only [State.store_respond, State.store_setStore_self]
  | error k => exact ⟨_, _, exec_lineInstr_of_error hp, exec_lineInstr_of_error (hstore ▸ hmax ▸ hp), hstore, rfl⟩

/-! ## Several lines (rule R208) -/

/-- Setting a store twice keeps the second value. -/
@[simp] theorem State.setStore_setStore (s : State) (r : Reg) (v w : BitStore) :
    (s.setStore r v).setStore r w = s.setStore r w := by
  cases r <;> rfl

@[simp] theorem State.setStore_respond (s : State) (r : Reg) (v : BitStore) (x : Response) :
    (s.respond x).setStore r v = (s.setStore r v).respond x := rfl

@[simp] theorem State.respond_respond (s : State) (x y : Response) : (s.respond x).respond y = s.respond y := rfl

/-- A line that raises nothing parses to the same store from the store it made. -/
theorem parseStore_idempotent {s : State} {r : Reg} {args : List Token} {new : BitStore}
    (h : parseStore s.maxBytes (s.store r) args = .ok new) : parseStore s.maxBytes new args = .ok new := by
  obtain ⟨w, n, ps, rfl, ⟨hdec, -⟩, hps, rfl⟩ := parseStore_eq_ok.1 h
  have hstore := State.store_setStore_self s r ((s.store r).afterLine n ps)
  have hw : GoodWidth (s.setStore r ((s.store r).afterLine n ps)) r w n := ⟨hdec, .inl (by simp)⟩
  have hagain := parseStore_eq_ok.2 ⟨w, n, ps, rfl, hw, hps, rfl⟩
  rwa [hstore, BitStore.afterLine_afterLine hps] at hagain

/-- A line issued twice leaves the state of issuing it once. -/
theorem exec_lineInstr_idempotent {r : Reg} {args : List Token} {s t : State} (h : exec (lineInstr r args) s = .next t) :
    exec (lineInstr r args) t = .next t := by
  obtain ⟨new, hp, rfl⟩ | ⟨k, hp, rfl⟩ := exec_lineInstr_eq_next h
  · have hagain : parseStore s.maxBytes ((s.setStore r new).store r) args = .ok new := by
      rw [State.store_setStore_self]
      exact parseStore_idempotent hp
    rw [exec_lineInstr_of_ok (s := (s.setStore r new).respond _) hagain, State.setStore_respond, State.setStore_setStore,
      State.respond_respond]
  · exact exec_lineInstr_of_error (s := s.respond _) hp

/-- A line with a width alone that answers ok leaves the resized store with its capacities raised. -/
theorem exec_width_ok {r : Reg} {w : Token} {n : Nat} {s t : State} (hdec : decimal w = some n)
    (h : exec (lineInstr r [w]) s = .next t) (hok : t.response = some (.ok .empty)) :
    t.store r = (s.store r).afterLine n [] := by
  obtain ⟨w', n', ps, hargs, ⟨hdec', -⟩, -, rfl⟩ := exec_lineInstr_ok h hok
  cases ps with
  | nil =>
    cases hargs
    cases hdec.symm.trans hdec'
    simp
  | cons p ps => simp [pairTokens] at hargs

/-- Settles O43: a second issue parses to the store it finds; the scenario is evaluated; and a width that changes on the way back zeroes
the fields. -/
theorem linesOverTime : Obligations.LinesOverTime := by
  unfold Obligations.LinesOverTime
  refine ⟨fun _ _ _ _ => exec_lineInstr_idempotent, ⟨_, _, _, rfl, rfl, rfl, rfl, rfl⟩, ?_⟩
  intro r w w' n n' s t u hdec hdec' hne _ ht htok hu huok f
  have hchange : n ≠ (t.store r).numBits := by rwa [exec_width_ok hdec' ht htok, BitStore.numBits_afterLine]
  rw [exec_width_ok hdec hu huok, BitStore.data_afterLine_of_not_mem (by simp), BitStore.resized_of_ne hchange,
    BitStore.field_zeroed]
  rfl

/-! ## `QUERY` (rule R205) -/

/-- A `QUERY` packet with a reserved `reg` is not well formed (rule R95). -/
theorem not_legal_query {b : Byte} (h : 5 < b.toNat) : ¬ (decodePacket [0x31, b]).Legal := by
  rw [show (0x31 : Byte) = Opcode.query.byte from rfl, decodePacket_byte, decodeFields, legal_decodeQ]
  rintro ⟨r, hr, hle⟩
  cases hr
  omega

/-- Settles O44: the result reads the store, and a failed line gives a response that `QUERY` does not read. -/
theorem queryReturnsTheStore : Obligations.QueryReturnsTheStore := by
  unfold Obligations.QueryReturnsTheStore
  refine ⟨fun r => decodeOfEncode (.query r) rfl, fun b hb s => runPacket_eq_badPacket.2 (not_legal_query hb), fun s r => ?_⟩
  refine ⟨rfl, fun hwf f => ((Memory.wf_iff.1 hwf).1 r f).1, ?_, fun r' args t k h hk => ?_⟩
  · cases r <;> rfl
  · rw [exec_lineInstr_error h hk]
    rfl

end Sys2Proof.Machine

/-! # The statements of 60_exceptions.md: what an erroring command leaves, which kinds it raises, and when `AllocationError` is raised -/

namespace Sys2Proof.Machine

/-! ## What an erroring command leaves, and the kinds it raises (rules R230, R237) -/

/-- Command `i` has raised `k`, a kind of its row of rule R230, in one of the two ways of rule R237: with nothing changed but the response,
or, as `HEXDEC` does, with its live target emptied too. -/
inductive Raised (i : Instr) (s : State) (k : ErrorKind) : State → Prop where
  | unchanged (hi : ∀ id text, i ≠ .hexdec id text) (hk : k ∈ mayRaise i) : Raised i s k (s.respond (.error k))
  | emptied {id : Byte} {text : Bytes} {j : Nat} {b : Buf} (hi : i = .hexdec id text) (hk : k ∈ mayRaise i)
      (hb : ScratchHolds s id j b) : Raised i s k ((s.setSlot j (some { cap := b.cap, data := [] })).respond (.error k))

theorem Raised.mem_mayRaise {i : Instr} {s t : State} {k : ErrorKind} (h : Raised i s k t) : k ∈ mayRaise i := by
  cases h <;> assumption

theorem lineInstr_ne_hexdec (r : Reg) (args : List Token) (id : Byte) (text : Bytes) : lineInstr r args ≠ .hexdec id text := by
  cases r <;> simp [lineInstr]

/-- Storing bytes raises `AllocationError` alone and then changes nothing. -/
theorem storeBytes_error {s t : State} {i : Nat} {b : Buf} {Y : Bytes} {res : Result} {k : ErrorKind}
    (h : storeBytes s i b Y res = .next t) (hk : t.response = some (.error k)) :
    k = .allocationError ∧ t = s.respond (.error k) := by
  obtain ⟨-, e⟩ | ⟨-, e⟩ := storeBytes_cases s i b Y res <;> rw [e] at h <;> cases h <;> cases hk
  exact ⟨rfl, rfl⟩

section
variable {i : Instr} {s t : State} {k : ErrorKind}

/-- A command other than `HEXDEC` that ends by storing bytes, and may raise `AllocationError`. -/
theorem Raised.of_storeBytes {j : Nat} {b : Buf} {Y : Bytes} {res : Result} (hi : ∀ id text, i ≠ .hexdec id text)
    (hmay : .allocationError ∈ mayRaise i) (h : storeBytes s j b Y res = .next t) (hk : t.response = some (.error k)) :
    Raised i s k t := by
  obtain ⟨rfl, rfl⟩ := storeBytes_error h hk
  exact .unchanged hi hmay

theorem Raised.of_mergeInto {dst tl l h : Byte} {tw lw hw : Nat} (hi : ∀ id text, i ≠ .hexdec id text)
    (hmay : .allocationError ∈ mayRaise i) (hx : mergeInto dst tl tw l lw h hw s = .next t)
    (hk : t.response = some (.error k)) : Raised i s k t := by
  obtain ⟨j, d, bt, bl, bh, -, -, -, -, -, -, hs⟩ := mergeInto_eq_next hx
  exact .of_storeBytes hi hmay hs hk

/-- All that a command which answers an error has done. -/
theorem exec_raised (h : exec i s = .next t) (hk : t.response = some (.error k)) : Raised i s k t := by
  cases i using Instr.casesLine with
  | line r args =>
    obtain ⟨new, -, rfl⟩ | ⟨k', hp, rfl⟩ := exec_lineInstr_eq_next h <;> cases hk
    exact .unchanged (lineInstr_ne_hexdec r args) (by rw [mayRaise_lineInstr]; exact parseStore_error hp)
  | bcreate id n =>
    obtain ⟨j, -, ⟨-, rfl⟩ | ⟨-, rfl⟩⟩ := exec_bcreate_eq_next h <;> cases hk
    exact .unchanged (by simp) (by simp [mayRaise])
  | breset id =>
    obtain ⟨j, b, -, rfl⟩ := exec_breset_eq_next.1 h
    cases hk
  | bappend id V =>
    obtain ⟨j, b, -, hs⟩ := exec_bappend_eq_next.1 h
    exact .of_storeBytes (by simp) (by simp [mayRaise]) hs hk
  | bresizez id n =>
    obtain ⟨j, b, -, hs⟩ := exec_bresizez_eq_next.1 h
    exact .of_storeBytes (by simp) (by simp [mayRaise]) hs hk
  | bdestroy id =>
    obtain ⟨j, b, -, rfl⟩ := exec_bdestroy_eq_next.1 h
    cases hk
  | bread id =>
    obtain ⟨b, -, rfl⟩ := exec_bread_eq_next.1 h
    cases hk
  | hexdec id text =>
    obtain ⟨j, b, hb, ⟨-, rfl⟩ | ⟨Y, -, hs⟩⟩ := exec_hexdec_eq_next h
    · cases hk
      exact .emptied rfl (by simp [mayRaise]) hb
    · obtain ⟨rfl, rfl⟩ := storeBytes_error hs hk
      exact .emptied rfl (by simp [mayRaise]) hb
  | hexren id =>
    obtain ⟨b, -, rfl⟩ := exec_hexren_eq_next.1 h
    cases hk
  | merge dst t' tw l lw h' hw => exact .of_mergeInto (by simp) (by simp [mayRaise]) h hk
  | chain dst sr f => exact .of_mergeInto (by simp) (by simp [mayRaise]) h hk
  | query r =>
    obtain rfl := exec_query_eq_next.1 h
    cases hk

end

/-- Settles O51: an error is one of the two ways of `Raised`, told apart by whether the command is `HEXDEC`. -/
theorem errorsChangeNothing : Obligations.ErrorsChangeNothing := by
  unfold Obligations.ErrorsChangeNothing
  intro i s t k h hk
  cases exec_raised h hk with
  | unchanged hi _ => exact ⟨fun _ => rfl, fun id text e => absurd e (hi id text)⟩
  | @emptied id text j b hi _ hb =>
    subst hi
    refine ⟨fun hne => absurd rfl (hne id text), fun id' text' e => ?_⟩
    cases e
    exact ⟨j, b, hb, rfl⟩

/-! ## The status codes, and `UnknownCommandError` (rules R230, R234) -/

/-- A response with status ok has its packet only where the result fits, and then its first byte is 0. -/
theorem head?_packet_ok {r : Result} {p : Bytes} (h : (Response.ok r).packet = some p) : p.head? = some 0x00 := by
  rw [Response.packet] at h
  split at h
  · cases h
    rfl
  · cases h

/-- None of the 17 commands raises `UnknownCommandError`. -/
theorem unknownCommandError_not_mem_mayRaise (i : Instr) : .unknownCommandError ∉ mayRaise i := by
  cases i using Instr.casesLine with
  | line r args =>
    rw [mayRaise_lineInstr]
    decide
  | bcreate | breset | bappend | bresizez | bdestroy | bread | hexdec | hexren | merge | chain | query => simp [mayRaise]

/-- `UnknownCommandError` answers a line that names no register command and no other packet. -/
theorem runPacket_unknownCommandError_iff {p : Packet} {s t : State} (h : runPacket p s = .next t) :
    t.response = some (.error .unknownCommandError) ↔ decodePacket p = .unknownLine := by
  obtain ⟨i, hd, hi⟩ | ⟨hd, rfl⟩ := runPacket_cases h
  · have hne : t.response ≠ some (.error .unknownCommandError) := fun hk =>
      unknownCommandError_not_mem_mayRaise i (exec_raised hi hk).mem_mayRaise
    simp [hne, hd]
  · simp [hd]

/-- Settles O52: the codes are read off `ErrorKind.code`, the kinds off `Raised`. -/
theorem errorKindsAndCodes : Obligations.ErrorKindsAndCodes := by
  unfold Obligations.ErrorKindsAndCodes
  exact ⟨fun _ _ => head?_packet_ok, rfl, rfl, rfl, rfl, rfl, rfl, fun _ _ _ _ h hk => (exec_raised h hk).mem_mayRaise,
    fun _ _ _ => runPacket_unknownCommandError_iff⟩

/-! ## When `AllocationError` is raised (rule R231) -/

/-- Some buffer that the command needs is too large for `MAXBYTES`. -/
def NeedsTooMuch (s : State) (i : Instr) : Prop := ∃ need, Needs s need i ∧ fits s.maxBytes need = false

/-- The statement's two bounds are `fits`, which is false only under a finite `MAXBYTES` below the need. -/
theorem needsTooMuch_iff {s : State} {i : Instr} :
    NeedsTooMuch s i ↔ ∃ need m, Needs s need i ∧ s.maxBytes = some m ∧ m < need := by
  simp only [NeedsTooMuch, fits_eq_false, exists_and_left]

/-- A command that needs one number of bytes needs too much exactly where that number does not fit. -/
theorem needsTooMuch_of_needs_iff {s : State} {i : Instr} {n : Nat} (h : ∀ need, Needs s need i ↔ need = n) :
    NeedsTooMuch s i ↔ fits s.maxBytes n = false := by
  simp only [NeedsTooMuch, h, exists_eq_left]

/-- A live slot and its id determine one another, and the buffer. -/
theorem ScratchHolds.unique {s : State} {id : Byte} {i j : Nat} {b c : Buf} (hb : ScratchHolds s id i b)
    (hc : ScratchHolds s id j c) : b = c := by
  obtain rfl : i = j := Nat.add_left_cancel (hb.1.symm.trans hc.1)
  exact Option.some.inj (hb.2.symm.trans hc.2)

theorem needs_bappend_iff {s : State} {id : Byte} {i : Nat} {b : Buf} {V : Bytes} {need : Nat} (hb : ScratchHolds s id i b) :
    Needs s need (.bappend id V) ↔ need = (b.data ++ V).length := by
  rw [List.length_append]
  constructor
  · rintro ⟨j, c, hc, rfl⟩
    rw [hb.unique hc, Buf.len]
  · exact fun e => ⟨i, b, hb, e⟩

theorem needs_hexdec_iff {s : State} {id : Byte} {text Y : Bytes} {need : Nat} (hY : decodeHex text = some Y) :
    Needs s need (.hexdec id text) ↔ need = Y.length := by
  simp [Needs, hY, length_of_decodeHex hY]

theorem needs_chain_iff {s : State} {dst : Byte} {sr : ShiftReg} {f : Field} {need : Nat} :
    Needs s need (.chain dst sr f) ↔ need = ceil8 ((s.store (trailerStore sr)).numBits + (s.store (bodyStore sr)).numBits +
      (s.store (headerStore sr)).numBits) := by
  cases sr <;> rfl

theorem needs_lineInstr_iff {s : State} {r : Reg} {args : List Token} {need : Nat} :
    Needs s need (lineInstr r args) ↔ ∃ w rest n, args = w :: rest ∧ decimal w = some n ∧ n ≠ (s.store r).numBits ∧
      need = ceil8 n := by
  cases r <;> rfl

/-- Behind a width step that succeeds nothing is allocated (rule R196). -/
theorem parseStore_ne_allocationError {maxBytes : Option Nat} {old new : BitStore} {w : Token} {pairs : List Token} {n : Nat}
    (hd : decimal w = some n) (hw : widthStep maxBytes old n = some new) :
    parseStore maxBytes old (w :: pairs) ≠ .error .allocationError := by
  simp only [parseStore, hd, hw]
  cases hp : pairsStep n pairs [] new with
  | ok new' => simp
  | error k => obtain rfl | rfl | rfl | rfl := pairsStep_error hp <;> simp

/-- A line raises `AllocationError` in its width step alone (rule R196). -/
theorem parseStore_eq_allocationError {maxBytes : Option Nat} {old : BitStore} {args : List Token} :
    parseStore maxBytes old args = .error .allocationError ↔
      ∃ w rest n, args = w :: rest ∧ decimal w = some n ∧ n ≠ old.numBits ∧ fits maxBytes (ceil8 n) = false := by
  constructor
  · intro h
    cases args with
    | nil => cases h
    | cons w pairs =>
      cases hd : decimal w with
      | none =>
        rw [parseStore_of_bad_width hd] at h
        cases h
      | some n =>
        obtain ⟨-, hw⟩ | ⟨-, -, hw⟩ | ⟨hn, hf, -⟩ := widthStep_cases maxBytes old n
        · exact absurd h (parseStore_ne_allocationError hd hw)
        · exact absurd h (parseStore_ne_allocationError hd hw)
        · exact ⟨w, pairs, n, rfl, hd, hn, hf⟩
  · rintro ⟨w, rest, n, rfl, hd, hn, hf⟩
    exact parseStore_of_large_width hd hn hf

theorem needsTooMuch_lineInstr_iff {s : State} {r : Reg} {args : List Token} :
    NeedsTooMuch s (lineInstr r args) ↔ parseStore s.maxBytes (s.store r) args = .error .allocationError := by
  rw [parseStore_eq_allocationError]
  simp only [NeedsTooMuch, needs_lineInstr_iff]
  constructor
  · rintro ⟨-, ⟨w, rest, n, hargs, hd, hn, rfl⟩, hf⟩
    exact ⟨w, rest, n, hargs, hd, hn, hf⟩
  · rintro ⟨w, rest, n, hargs, hd, hn, hf⟩
    exact ⟨_, ⟨w, rest, n, hargs, hd, hn, rfl⟩, hf⟩

section
variable {i : Instr} {s t : State}

/-- A command that raises no kind needs no buffer. -/
theorem not_needsTooMuch_of_mayRaise_nil (h : mayRaise i = []) : ¬ NeedsTooMuch s i := by
  rintro ⟨need, hneed, -⟩
  cases i using Instr.casesLine with
  | line r args => simp [lineKinds] at h
  | breset | bdestroy | bread | hexren | query => exact hneed
  | bcreate | bappend | bresizez | hexdec | merge | chain => simp [mayRaise] at h

theorem allocationError_iff_of_mayRaise_nil (h : exec i s = .next t) (hnil : mayRaise i = []) :
    t.response = some (.error .allocationError) ↔ NeedsTooMuch s i := by
  refine iff_of_false (fun hk => ?_) (not_needsTooMuch_of_mayRaise_nil hnil)
  have hmem := (exec_raised h hk).mem_mayRaise
  simp [hnil] at hmem

theorem storeBytes_allocationError_iff {j : Nat} {b : Buf} {Y : Bytes} {res : Result} (h : storeBytes s j b Y res = .next t) :
    t.response = some (.error .allocationError) ↔ fits s.maxBytes Y.length = false := by
  obtain ⟨hf, e⟩ | ⟨hf, e⟩ := storeBytes_cases s j b Y res <;> rw [e] at h <;> cases h <;> simp [hf]

theorem mergeInto_allocationError_iff {dst tl l h : Byte} {tw lw hw : Nat} (hx : mergeInto dst tl tw l lw h hw s = .next t) :
    t.response = some (.error .allocationError) ↔ fits s.maxBytes (ceil8 (tw + lw + hw)) = false := by
  obtain ⟨j, d, bt, bl, bh, -, -, -, -, -, -, hs⟩ := mergeInto_eq_next hx
  simpa only [length_packBytes, packTotal] using storeBytes_allocationError_iff hs

/-- A command that answers raises `AllocationError` exactly where it needs too much. -/
theorem exec_allocationError_iff (h : exec i s = .next t) :
    t.response = some (.error .allocationError) ↔ NeedsTooMuch s i := by
  cases i using Instr.casesLine with
  | line r args =>
    rw [needsTooMuch_lineInstr_iff]
    obtain ⟨new, hp, rfl⟩ | ⟨k, hp, rfl⟩ := exec_lineInstr_eq_next h <;> simp [hp]
  | bcreate id n =>
    rw [needsTooMuch_of_needs_iff fun _ => Iff.rfl]
    obtain ⟨j, -, ⟨hf, rfl⟩ | ⟨hf, rfl⟩⟩ := exec_bcreate_eq_next h <;> simp [hf]
  | bappend id V =>
    obtain ⟨j, b, hb, hs⟩ := exec_bappend_eq_next.1 h
    rw [needsTooMuch_of_needs_iff fun _ => needs_bappend_iff hb, storeBytes_allocationError_iff hs]
  | bresizez id n =>
    obtain ⟨j, b, -, hs⟩ := exec_bresizez_eq_next.1 h
    rw [needsTooMuch_of_needs_iff fun _ => Iff.rfl, storeBytes_allocationError_iff hs, length_zeros]
  | hexdec id text =>
    obtain ⟨j, b, -, ⟨hd, rfl⟩ | ⟨Y, hY, hs⟩⟩ := exec_hexdec_eq_next h
    · simp [NeedsTooMuch, Needs, hd]
    · rw [needsTooMuch_of_needs_iff fun _ => needs_hexdec_iff hY, storeBytes_allocationError_iff hs]
      rfl
  | merge dst t' tw l lw h' hw =>
    rw [needsTooMuch_of_needs_iff fun _ => Iff.rfl, mergeInto_allocationError_iff h]
  | chain dst sr f => rw [needsTooMuch_of_needs_iff fun _ => needs_chain_iff, mergeInto_allocationError_iff h]
  | breset | bdestroy | bread | hexren | query => exact allocationError_iff_of_mayRaise_nil h rfl

end

/-- Settles O53: the raised `AllocationError` and the need that does not fit decide one another, command by command. -/
theorem allocationErrorExactlyAboveMaxBytes : Obligations.AllocationErrorExactlyAboveMaxBytes := by
  unfold Obligations.AllocationErrorExactlyAboveMaxBytes
  intro i s t h
  rw [exec_allocationError_iff h, needsTooMuch_iff]

end Sys2Proof.Machine
